-- ==== Sys2Proof/Word.lean ====
section
/-! DEFINITION. The words of the machine and the numbers that name things (R7, R11, R32, R42, R43, R73). -/

namespace Sys2Proof

/-- A `u8`: a memory byte, a general register, a timer, the immediate `nn`. -/
abbrev Byte := BitVec 8

/-- A `u16`: the instruction word, `pc`, `index`, a stack entry. -/
abbrev Word := BitVec 16

/-- The 12-bit address field `nnn` (R71). -/
abbrev Addr := BitVec 12

/-- The number of a general register, `0x0` to `0xF` (R32). -/
abbrev Reg := Fin 16

/-- One of the 16 logical keys, `0x0` to `0xF` (R43). -/
abbrev Key := Fin 16

/-- The row count `n` of `Dxyn`, 0 to 15 (R73). -/
abbrev Count := Fin 16

/-- `VF`, register number `0xF`, the implicit flag register (R33, R35). -/
abbrev VF : Reg := 15

/-- A pixel's place: column 0 to 63, row 0 to 31 (R42). -/
abbrev Pixel := Fin 64 × Fin 32

/-- The framebuffer's contents, `FB[cx][cy]`; `true` is lit (R42). -/
abbrev Grid := Vector (Vector Bool 32) 64

end Sys2Proof
end

