-- ==== Sys2Proof/Syntax.lean ====
section
/-! DEFINITION. The instructions: one constructor per row of spec/opcode_table.json, in its order, with the operands that
the decoder of R79 hands over. -/

namespace Sys2Proof

/-- An instruction (R79, R83). `x` and `y` are register numbers, `nn` an 8-bit immediate, `nnn` a 12-bit address, `n` a
row count. -/
inductive Instr where
  /-- `00E0` CLS: clear screen (R100). -/
  | cls
  /-- `00EE` RET: return (R120). -/
  | ret
  /-- `1nnn` JP: jump (R121). -/
  | jp (nnn : Addr)
  /-- `2nnn` CALL: call (R122). -/
  | call (nnn : Addr)
  /-- `3xnn` SE_I: skip if equal to the immediate (R130). -/
  | seI (x : Reg) (nn : Byte)
  /-- `4xnn` SNE_I: skip if not equal to the immediate (R131). -/
  | sneI (x : Reg) (nn : Byte)
  /-- `5xy0` SE_R: skip if the registers are equal; bits 3:0 are ignored (R80, R132). -/
  | seR (x y : Reg)
  /-- `6xnn` LD_I: set (R142). -/
  | ldI (x : Reg) (nn : Byte)
  /-- `7xnn` ADD_I: add without flag (R143). -/
  | addI (x : Reg) (nn : Byte)
  /-- `8xy0` LD_R: copy (R144). -/
  | ldR (x y : Reg)
  /-- `8xy1` OR (R145). -/
  | or (x y : Reg)
  /-- `8xy2` AND (R146). -/
  | and (x y : Reg)
  /-- `8xy3` XOR (R147). -/
  | xor (x y : Reg)
  /-- `8xy4` ADD_R: add with carry (R148). -/
  | addR (x y : Reg)
  /-- `8xy5` SUB: subtract (R149). -/
  | sub (x y : Reg)
  /-- `8xy6` SHR: shift right; `y` is encoded and unused (R150). -/
  | shr (x y : Reg)
  /-- `8xy7` SUBN: reverse subtract (R151). -/
  | subn (x y : Reg)
  /-- `8xyE` SHL: shift left; `y` is encoded and unused (R152). -/
  | shl (x y : Reg)
  /-- `9xy0` SNE_R: skip if the registers differ; bits 3:0 are ignored (R80, R133). -/
  | sneR (x y : Reg)
  /-- `Annn` LD_IDX: set the index register (R160). -/
  | ldIdx (nnn : Addr)
  /-- `Bxnn` JP_OFS: jump with offset (R123). -/
  | jpOfs (x : Reg) (nn : Byte)
  /-- `Cxnn` RND: random byte, masked (R153). -/
  | rnd (x : Reg) (nn : Byte)
  /-- `Dxyn` DRW: draw sprite (R101). -/
  | drw (x y : Reg) (n : Count)
  /-- `Ex9E` SKP: skip if the key is held (R134). -/
  | skp (x : Reg)
  /-- `ExA1` SKNP: skip if the key is not held (R135). -/
  | sknp (x : Reg)
  /-- `Fx07` LD_V_DT: read the delay timer (R170). -/
  | ldVDt (x : Reg)
  /-- `Fx0A` LD_V_K: wait for a key (R173). -/
  | ldVK (x : Reg)
  /-- `Fx15` LD_DT_V: set the delay timer (R171). -/
  | ldDtV (x : Reg)
  /-- `Fx18` LD_ST_V: set the sound timer (R172). -/
  | ldStV (x : Reg)
  /-- `Fx1E` ADD_IDX_V: add to the index register (R161). -/
  | addIdxV (x : Reg)
  /-- `Fx29` LD_F_V: address of a font character (R162). -/
  | ldFV (x : Reg)
  /-- `Fx33` LD_B_V: store the decimal digits (R163). -/
  | ldBV (x : Reg)
  /-- `Fx55` LD_MEM_V: store `V0` to `Vx` (R164). -/
  | ldMemV (x : Reg)
  /-- `Fx65` LD_V_MEM: load `V0` to `Vx` (R165). -/
  | ldVMem (x : Reg)
  /-- UNRECOGNIZED: any other word, a no-op (R190). It carries its word, so that no bit of an encoding is lost. -/
  | unrecognized (w : Word)
  deriving DecidableEq, Repr

end Sys2Proof
end

