-- ==== Sys2Proof/WellFormed.lean ====
section
/-! DEFINITION. When an instruction is well formed. Every operand's range is its type's, so the one check is the one on
`unrecognized`: its word is one of the words that R81 lists. -/

namespace Sys2Proof

/-- The words that R81 lists as `UNRECOGNIZED`, group by group: groups 0, 8, E and F have some, the others none. -/
def unrecognizedWord (w : Word) : Bool :=
  let op := (w.extractLsb' 12 4).toNat
  let n := (w.extractLsb' 0 4).toNat
  let nn := (w.extractLsb' 0 8).toNat
  if op = 0x0 then w != 0x00E0#16 && w != 0x00EE#16
  else if op = 0x8 then [0x8, 0x9, 0xA, 0xB, 0xC, 0xD, 0xF].contains n
  else if op = 0xE then !([0x9E, 0xA1].contains nn)
  else if op = 0xF then !([0x07, 0x0A, 0x15, 0x18, 0x1E, 0x29, 0x33, 0x55, 0x65].contains nn)
  else false

/-- Well formed: an `unrecognized` word is one of R81's; every other instruction is. -/
def Instr.wellFormed : Instr → Bool
  | .unrecognized w => unrecognizedWord w
  | .cls | .ret | .jp _ | .call _ | .seI _ _ | .sneI _ _ | .seR _ _ | .ldI _ _ | .addI _ _ => true
  | .ldR _ _ | .or _ _ | .and _ _ | .xor _ _ | .addR _ _ | .sub _ _ | .shr _ _ | .subn _ _ | .shl _ _ => true
  | .sneR _ _ | .ldIdx _ | .jpOfs _ _ | .rnd _ _ | .drw _ _ _ | .skp _ | .sknp _ => true
  | .ldVDt _ | .ldVK _ | .ldDtV _ | .ldStV _ | .addIdxV _ | .ldFV _ | .ldBV _ | .ldMemV _ | .ldVMem _ => true

end Sys2Proof
end

