-- ==== Sys2Proof/Decode.lean ====
section
/-! DEFINITION. The decoder of R79, total on words and on bytes, and the encoder of the encodings of R83. -/

namespace Sys2Proof

/-! ## Fields of the instruction word (R71) -/

/-- `op = I[15:12]`. -/
def opField (w : Word) : Fin 16 := (w.extractLsb' 12 4).toFin

/-- `x = I[11:8]`, a register number. -/
def xField (w : Word) : Reg := (w.extractLsb' 8 4).toFin

/-- `y = I[7:4]`, a register number. -/
def yField (w : Word) : Reg := (w.extractLsb' 4 4).toFin

/-- `n = I[3:0]`, a row count or a sub-opcode. -/
def nField (w : Word) : Count := (w.extractLsb' 0 4).toFin

/-- `nn = I[7:0]`. -/
def nnField (w : Word) : Byte := w.extractLsb' 0 8

/-- `nnn = I[11:0]`. -/
def nnnField (w : Word) : Addr := w.extractLsb' 0 12

/-! ## The decoder -/

/-- Group 0 matches the whole word (R80). -/
def decodeGroup0 (w : Word) : Instr :=
  if w = 0x00E0#16 then .cls else if w = 0x00EE#16 then .ret else .unrecognized w

/-- Group 8 dispatches on `n` (R79). -/
def decodeGroup8 (w : Word) : Instr :=
  match (nField w).val with
  | 0x0 => .ldR (xField w) (yField w)
  | 0x1 => .or (xField w) (yField w)
  | 0x2 => .and (xField w) (yField w)
  | 0x3 => .xor (xField w) (yField w)
  | 0x4 => .addR (xField w) (yField w)
  | 0x5 => .sub (xField w) (yField w)
  | 0x6 => .shr (xField w) (yField w)
  | 0x7 => .subn (xField w) (yField w)
  | 0xE => .shl (xField w) (yField w)
  | _ => .unrecognized w

/-- Group E dispatches on the whole low byte (R80). -/
def decodeGroupE (w : Word) : Instr :=
  match (nnField w).toNat with
  | 0x9E => .skp (xField w)
  | 0xA1 => .sknp (xField w)
  | _ => .unrecognized w

/-- Group F dispatches on the whole low byte (R80). -/
def decodeGroupF (w : Word) : Instr :=
  match (nnField w).toNat with
  | 0x07 => .ldVDt (xField w)
  | 0x0A => .ldVK (xField w)
  | 0x15 => .ldDtV (xField w)
  | 0x18 => .ldStV (xField w)
  | 0x1E => .addIdxV (xField w)
  | 0x29 => .ldFV (xField w)
  | 0x33 => .ldBV (xField w)
  | 0x55 => .ldMemV (xField w)
  | 0x65 => .ldVMem (xField w)
  | _ => .unrecognized w

/-- `decode(I)` of R79: every word is exactly one instruction. Groups 5 and 9 ignore bits 3:0 (R80). -/
def decodeWord (w : Word) : Instr :=
  match (opField w).val with
  | 0x0 => decodeGroup0 w
  | 0x1 => .jp (nnnField w)
  | 0x2 => .call (nnnField w)
  | 0x3 => .seI (xField w) (nnField w)
  | 0x4 => .sneI (xField w) (nnField w)
  | 0x5 => .seR (xField w) (yField w)
  | 0x6 => .ldI (xField w) (nnField w)
  | 0x7 => .addI (xField w) (nnField w)
  | 0x8 => decodeGroup8 w
  | 0x9 => .sneR (xField w) (yField w)
  | 0xA => .ldIdx (nnnField w)
  | 0xB => .jpOfs (xField w) (nnField w)
  | 0xC => .rnd (xField w) (nnField w)
  | 0xD => .drw (xField w) (yField w) (nField w)
  | 0xE => decodeGroupE w
  | _ => decodeGroupF w

/-- Why bytes are no instruction. No word is refused (R82), so the one reason is a missing byte. -/
inductive DecodeError where
  /-- Fewer than the two bytes of an instruction (R70). -/
  | truncated
  deriving DecidableEq, Repr

/-- The instruction word of two bytes, big-endian: the first byte is the high one (R54). -/
def joinBytes (hi lo : Byte) : Word := hi ++ lo

/-- The instruction at the head of a byte string, and the bytes after it. -/
def decode : List Byte → Except DecodeError (Instr × List Byte)
  | hi :: lo :: rest => .ok (decodeWord (joinBytes hi lo), rest)
  | _ => .error .truncated

/-- The two bytes of a word as the hardware stores them, the high byte at the lower address (R54). -/
def wordBytes (w : Word) : List Byte := [w.extractLsb' 8 8, w.extractLsb' 0 8]

/-- The word of an opcode-table row given as `nbits` bits of the number `w`; the bits above `nbits` are 0. -/
def tableWord (nbits w : Nat) : Word := BitVec.ofNat 16 (w % 2 ^ nbits)

/-- What the decoder reads from the bytes of an opcode-table row. -/
def decodeTableWord (nbits w : Nat) : Option Instr :=
  match decode (wordBytes (tableWord nbits w)) with
  | .ok (i, _) => some i
  | .error _ => none

/-! ## The encoder, from the match and mask columns of R83 -/

/-- Four bits of a register number or a count. -/
def nibble (x : Fin 16) : BitVec 4 := BitVec.ofFin x

/-- Format `A`: `op`, `nnn` (R72). -/
def encodeA (op : BitVec 4) (nnn : Addr) : Word := op ++ nnn

/-- Format `XNN`: `op`, `x`, `nn` (R72). Format `XS` is the same with `nn` as sub-opcode. -/
def encodeXNN (op : BitVec 4) (x : Reg) (nn : Byte) : Word := op ++ nibble x ++ nn

/-- Format `XYN`: `op`, `x`, `y`, `n` (R72). Formats `XYS` and `XY` are the same with `n` as sub-opcode, and as 0 (R84). -/
def encodeXYN (op : BitVec 4) (x y : Reg) (n : BitVec 4) : Word := op ++ nibble x ++ nibble y ++ n

/-- The word of an instruction. The assembler writes `5xy0` and `9xy0` with low nibble 0 (R84). -/
def encode : Instr → Word
  | .cls => 0x00E0#16
  | .ret => 0x00EE#16
  | .jp nnn => encodeA 0x1#4 nnn
  | .call nnn => encodeA 0x2#4 nnn
  | .seI x nn => encodeXNN 0x3#4 x nn
  | .sneI x nn => encodeXNN 0x4#4 x nn
  | .seR x y => encodeXYN 0x5#4 x y 0x0#4
  | .ldI x nn => encodeXNN 0x6#4 x nn
  | .addI x nn => encodeXNN 0x7#4 x nn
  | .ldR x y => encodeXYN 0x8#4 x y 0x0#4
  | .or x y => encodeXYN 0x8#4 x y 0x1#4
  | .and x y => encodeXYN 0x8#4 x y 0x2#4
  | .xor x y => encodeXYN 0x8#4 x y 0x3#4
  | .addR x y => encodeXYN 0x8#4 x y 0x4#4
  | .sub x y => encodeXYN 0x8#4 x y 0x5#4
  | .shr x y => encodeXYN 0x8#4 x y 0x6#4
  | .subn x y => encodeXYN 0x8#4 x y 0x7#4
  | .shl x y => encodeXYN 0x8#4 x y 0xE#4
  | .sneR x y => encodeXYN 0x9#4 x y 0x0#4
  | .ldIdx nnn => encodeA 0xA#4 nnn
  | .jpOfs x nn => encodeXNN 0xB#4 x nn
  | .rnd x nn => encodeXNN 0xC#4 x nn
  | .drw x y n => encodeXYN 0xD#4 x y (nibble n)
  | .skp x => encodeXNN 0xE#4 x 0x9E#8
  | .sknp x => encodeXNN 0xE#4 x 0xA1#8
  | .ldVDt x => encodeXNN 0xF#4 x 0x07#8
  | .ldVK x => encodeXNN 0xF#4 x 0x0A#8
  | .ldDtV x => encodeXNN 0xF#4 x 0x15#8
  | .ldStV x => encodeXNN 0xF#4 x 0x18#8
  | .addIdxV x => encodeXNN 0xF#4 x 0x1E#8
  | .ldFV x => encodeXNN 0xF#4 x 0x29#8
  | .ldBV x => encodeXNN 0xF#4 x 0x33#8
  | .ldMemV x => encodeXNN 0xF#4 x 0x55#8
  | .ldVMem x => encodeXNN 0xF#4 x 0x65#8
  | .unrecognized w => w

/-- The bytes of an instruction in memory order. -/
def encodeBytes (i : Instr) : List Byte := wordBytes (encode i)

end Sys2Proof
end

