-- ==== Sys2Proof/Config.lean ====
section
/-! DEFINITION. The implementation parameters of R7, and the free values of R8: what the spec leaves to the
implementation or to the host. A free value is an opaque constant without a body, so nothing can be proved of what it is
and a claim holds whatever it is. -/

namespace Sys2Proof

/-- `MEM_SIZE`: addresses `0x000` to `0xFFF` exist (R7, R50). -/
def Config.memSize : Nat := 0x1000

/-- `PROG_START`: where the program is loaded and the first fetch goes (R7, R59). -/
def Config.progStart : Nat := 0x200

/-- `FONT_SIZE`: 16 glyphs of 5 bytes, at address 0 (R7, R58). -/
def Config.fontSize : Nat := 80

/-- `GLYPH_BYTES` (R7, R162). -/
def Config.glyphBytes : Nat := 5

/-- The parameter `FONT`: `font k` is byte `k` of the font table, for `k < 80` (R8; D15; log 2). UNVERIFIED: the spec does
not give the bytes. -/
opaque Config.font : Nat → Byte

/-- The parameter `FB_INIT`: the framebuffer when the core starts (R8, R42; D14; log 4). -/
opaque Config.fbInit : Grid

/-- The parameter `SHIFT_FLAG_LAST` of `8xy6` and `8xyE` with `x = 0xF` (R8, R154; D10; log 7). -/
opaque Config.shiftFlagLast : Bool

/-- The byte that the host gives as its `n`-th answer, where that is a call of `random_byte()` (R216; D13; log 5). -/
opaque Config.randomByte : Nat → Byte

/-- What the host says of key `k` as its `n`-th answer, where that is a call of `is_held(k)` (R215; D12; log 5). -/
opaque Config.isHeld : Nat → Key → Bool

/-- The host's `n`-th answer, where that is a call of `poll()`: no key, or the next pressed key (R215; D12; log 5). -/
opaque Config.poll : Nat → Option Key

/-- How many times the host calls `tick_timers()` before a step, where its choice is the `n`-th answer (R211; D17; log 9). -/
opaque Config.hostTicks : Nat → Nat

end Sys2Proof
end

