-- ==== Sys2Proof/Machine/State.lean ====
section
/-! DEFINITION. The machine's state as plain data: everything R30, R31 and R214 give it, the reasons it stops, and the
state right after reset. -/

namespace Sys2Proof.Machine

/-- Memory: the bytes that differ from the reset contents, by address, strictly rising (R30, R50; the reading of an
unlisted address is `Memory.unlisted` in Machine/Ops.lean). -/
abbrev Memory := List Host.Cell

/-- What kind of access met an address that does not exist (R200). -/
inductive AccessKind where
  | fetch
  | read
  | write
  deriving DecidableEq, Repr

/-- The faults of R200, each with the information it records. `status` keeps the fault of a core that raised one, and the
step of such a core answers it, because a `Faulted` core takes no further step (R203). -/
inductive Fault where
  /-- Code 1: a byte access at an address of `0x1000` or more (R51, R202). Raised by the fetch of every step and by `Dxyn`,
  `Fx33`, `Fx55`, `Fx65`; it records the first such address, the kind and `pc`. Safe: the spec names the condition fatal. -/
  | memFault (addr : Nat) (kind : AccessKind) (pc : Word)
  /-- Code 2: `00EE` with an empty call stack (R201). Safe: the spec names the condition fatal. -/
  | stackUnderflow (pc : Word)
  /-- Code 3: `Ex9E` or `ExA1` with `V[x] > 0xF` (R136). Safe: the spec's own decision D11 errs toward unprovable. -/
  | keyOutOfRange (key : Byte) (pc : Word)
  deriving DecidableEq, Repr

/-- Why the model gives no meaning. -/
inductive Refusal where
  /-- The instruction has no meaning in the model yet. No arm of `exec` raises it: every instruction has its meaning. Safe. -/
  | notModelled (mnemonic : String)
  deriving DecidableEq, Repr

/-- Whether the core runs, or which fault ended its run (R44, R200). -/
inductive Status where
  | running
  | faulted (fault : Fault)
  deriving DecidableEq, Repr

/-- Construction fails when the image does not fit (R231); no machine exists then. -/
inductive BootError where
  | romTooLarge
  deriving DecidableEq, Repr

/-- The whole state. -/
structure State where
  /-- `V0` to `VF` (R32). -/
  v : Vector Byte 16
  /-- The program counter (R36). -/
  pc : Word
  /-- The index register (R39). -/
  index : Word
  /-- The call stack `S`, oldest entry first: a push appends, a pop takes the last (R13, R40). -/
  stack : List Word
  /-- The delay timer `DT` (R41). -/
  dt : Byte
  /-- The sound timer `ST` (R41). -/
  st : Byte
  /-- `mem` (R30, R50). -/
  mem : Memory
  /-- The framebuffer `FB` of the Display sink (R31, R42). -/
  fb : Grid
  /-- The frames that `present()` has put out, oldest first: the core's only display output (R214). -/
  presented : List Grid
  /-- `status` (R31, R44). -/
  status : Status
  /-- The model's own counter: how many free answers of the host have been used (R8; log 5). -/
  hostAnswers : Nat
  deriving DecidableEq, Repr

/-- The state right after `new` of an empty image (R46, R230). A program is loaded from outside the machine (log 1). -/
def State.reset : State where
  v := Vector.replicate 16 0#8
  pc := 0x200#16
  index := 0#16
  stack := []
  dt := 0#8
  st := 0#8
  mem := []
  fb := Config.fbInit
  presented := []
  status := .running
  hostAnswers := 0

end Sys2Proof.Machine
end

