-- ==== Sys2Proof/Machine/Ops.lean ====
section
/-! DEFINITION. The named operations over the state: its fields, memory, the call stack, the Display sink, the host's
answers, the end of an instruction and the raising of a fault. -/

namespace Sys2Proof.Machine

/-! ## Writing one field -/

def setV (v : Vector Byte 16) (s : State) : State := { s with v := v }
def setPc (a : Word) (s : State) : State := { s with pc := a }
def setIndex (a : Word) (s : State) : State := { s with index := a }
def setStack (l : List Word) (s : State) : State := { s with stack := l }
def setDt (b : Byte) (s : State) : State := { s with dt := b }
def setSt (b : Byte) (s : State) : State := { s with st := b }
def setMem (m : Memory) (s : State) : State := { s with mem := m }
def setFb (g : Grid) (s : State) : State := { s with fb := g }
def setStatus (x : Status) (s : State) : State := { s with status := x }

/-! ## Memory (R14, R50 to R56) -/

/-- What an unlisted address reads as: the reset contents, that is the font table at `0x000` to `0x04F` and zero elsewhere
(R46, R58; log 2, log 3). -/
def Memory.unlisted (a : Nat) : Byte := if a < Config.fontSize then Config.font a else 0#8

/-- The byte at an address. -/
def readByte : Memory → Nat → Byte
  | [], a => Memory.unlisted a
  | (k, b) :: m, a => if a = k then b else readByte m a

/-- A listed byte in front of a memory, left out where it equals what the unlisted address reads as. -/
def consCell (a : Nat) (b : Byte) (m : Memory) : Memory := if b = Memory.unlisted a then m else (a, b) :: m

/-- Memory with the byte `b` at address `a`, the cells kept in rising order. -/
def writeByte (a : Nat) (b : Byte) : Memory → Memory
  | [] => consCell a b []
  | (k, c) :: m =>
    if a < k then consCell a b ((k, c) :: m)
    else if a = k then consCell a b m
    else (k, c) :: writeByte a b m

/-- Memory with the bytes at `a`, `a + 1`, and so on, written in that order (R53). -/
def writeBytes (a : Nat) : List Byte → Memory → Memory
  | [], m => m
  | b :: bs, m => writeBytes (a + 1) bs (writeByte a b m)

/-- The canonical form from address `lo` on: addresses strictly rising and inside the address space, and no cell that equals
what its unlisted address reads as. -/
def Memory.wfFrom (lo : Nat) : Memory → Bool
  | [] => true
  | (k, b) :: m => decide (lo ≤ k) && decide (k < Config.memSize) && (b != Memory.unlisted k) && Memory.wfFrom (k + 1) m

/-- The canonical form of a memory. -/
def Memory.wf (m : Memory) : Bool := Memory.wfFrom 0 m

/-- The addresses of an access list of `n` bytes, in access order, as unbounded naturals (R52, R53). -/
def accessList (base n : Nat) : List Nat := (List.range n).map (base + ·)

/-- The first address of the access list that does not exist (R51, R206). -/
def firstOutOfRange (base n : Nat) : Option Nat := (accessList base n).find? (fun a => decide (Config.memSize ≤ a))

/-- The bytes of an access list, or the fault of its first address out of range (R51, R203). -/
def loadBytes (kind : AccessKind) (base n : Nat) (s : State) : Except Fault (List Byte) :=
  match firstOutOfRange base n with
  | some a => .error (.memFault a kind s.pc)
  | none => .ok ((accessList base n).map (readByte s.mem))

/-- The state with the bytes stored from `base` on, or the fault of the first address out of range; every address is checked
before the first write (R203). -/
def storeBytes (base : Nat) (bs : List Byte) (s : State) : Except Fault State :=
  match firstOutOfRange base bs.length with
  | some a => .error (.memFault a .write s.pc)
  | none => .ok (setMem (writeBytes base bs s.mem) s)

/-- The instruction word at an address, big-endian (R54). -/
def wordAt (m : Memory) (a : Nat) : Word := joinBytes (readByte m a) (readByte m (a + 1))

/-- The fetch phase: the word at `pc`, or the fault when `pc` or `pc + 1` is out of range (R75). No alignment is asked (R55). -/
def fetch (s : State) : Except Fault Word :=
  match firstOutOfRange s.pc.toNat 2 with
  | some a => .error (.memFault a .fetch s.pc)
  | none => .ok (wordAt s.mem s.pc.toNat)

/-! ## The call stack (R13, R40) -/

/-- `push(S, v)`. -/
def push (a : Word) (s : State) : State := setStack (s.stack ++ [a]) s

/-- `pop(S)`: the last entry and the state without it, or nothing when `S` is empty. -/
def pop (s : State) : Option (Word × State) := s.stack.getLast?.map fun a => (a, setStack s.stack.dropLast s)

/-! ## The Display sink (R214) -/

/-- The pixel at a place. -/
def pixelAt (g : Grid) (p : Pixel) : Bool := g[p.1.val][p.2.val]

/-- The framebuffer with one pixel written. -/
def setPixel (p : Pixel) (b : Bool) (g : Grid) : Grid := g.set p.1.val (g[p.1.val].set p.2.val b)

/-- `clear()`: every pixel false. -/
def clearGrid : Grid := Vector.replicate 64 (Vector.replicate 32 false)

/-- `toggle_pixel(x, y)`: the pixel inverted, and its previous state. -/
def togglePixel (p : Pixel) (g : Grid) : Grid × Bool := (setPixel p (!pixelAt g p) g, pixelAt g p)

/-- The toggles of a list of pixels, one after another, and whether one of them turned a lit pixel off (R106). -/
def toggleAll : List Pixel → Grid → Grid × Bool
  | [], g => (g, false)
  | p :: ps, g =>
    let first := togglePixel p g
    let rest := toggleAll ps first.1
    (rest.1, first.2 || rest.2)

/-- `present()`: one output event that carries the whole framebuffer as it stands. -/
def present (s : State) : State := { s with presented := s.presented ++ [s.fb] }

/-! ## The host's answers (R8, R211, R215, R216) -/

/-- One free answer of the host has been used. -/
def useAnswer (s : State) : State := { s with hostAnswers := s.hostAnswers + 1 }

/-! ## The end of an instruction -/

/-- The default epilogue: `if not jumped then pc <- wrap16(pc + 2)` (R76, R77). -/
def finish (jumped : Bool) (s : State) : Host.Outcome State Fault Refusal :=
  .next (if jumped then s else setPc (s.pc + 2#16) s)

/-- The extra `pc <- wrap16(pc + 2)` of a skip whose condition holds (R78). -/
def skipIf (c : Bool) (s : State) : State := setPc (if c then s.pc + 2#16 else s.pc) s

/-- `raise F(info)`: the only change is `status <- Faulted(code)` with the recorded information; the epilogue does not run
and nothing is saved, because there is no trap entry (R77, R203, R204). -/
def raiseFault (f : Fault) (s : State) : Host.Outcome State Fault Refusal := .next (setStatus (.faulted f) s)

/-- Go on with a result, or raise its fault from the state `s` before the instruction. -/
def orRaise {α : Type} (r : Except Fault α) (s : State) (k : α → Host.Outcome State Fault Refusal) :
    Host.Outcome State Fault Refusal :=
  match r with
  | .ok a => k a
  | .error f => raiseFault f s

end Sys2Proof.Machine
end

