-- ==== Sys2Proof/Machine/Operands.lean ====
section
/-! DEFINITION. The operand forms of R73 and R13: register operands, zero-extended immediates and addresses, a register's
value as a key number, the register ranges of `Fx55` and `Fx65`, the decimal digits of `Fx33`, the rows of `Dxyn`. -/

namespace Sys2Proof.Machine

/-- `V[x]`. -/
def readV (x : Reg) (s : State) : Byte := s.v[x.val]

/-- `V[x] <- b`. No register is hard-wired (R32). -/
def writeV (x : Reg) (b : Byte) (s : State) : State := setV (s.v.set x.val b) s

/-- `zext16` of a byte: the offset and the base of `Bxnn`, the addend of `Fx1E` (R15, R73). -/
def zextByte (b : Byte) : Word := b.zeroExtend 16

/-- `zext16(nnn)` (R15, R73). -/
def zextAddr (nnn : Addr) : Word := nnn.zeroExtend 16

/-- The key that a register value names, where it is `0xF` or less (R136). -/
def keyOf (b : Byte) : Option Key := if h : b.toNat < 16 then some ⟨b.toNat, h⟩ else none

/-- A key number as a register value (R173). -/
def keyByte (k : Key) : Byte := BitVec.ofNat 8 k.val

/-- `V0` to `Vx` inclusive, in order (R164). -/
def firstRegs (x : Reg) (s : State) : List Byte := s.v.toList.take (x.val + 1)

/-- A register file with `V[k]`, `V[k + 1]`, and so on set to the bytes, in order (R165). -/
def fillRegs (k : Nat) : List Byte → Vector Byte 16 → Vector Byte 16
  | [], v => v
  | b :: bs, v => fillRegs (k + 1) bs (v.setIfInBounds k b)

/-- The hundreds, tens and units digits (R163). -/
def decimalDigits (b : Byte) : List Byte := [b / 100#8, b / 10#8 % 10#8, b % 10#8]

/-- The address of a glyph, `5 * V[x]`, the value not masked (R162). -/
def glyphAddr (b : Byte) : Word := BitVec.ofNat 16 (Config.glyphBytes * b.toNat)

/-- A target on the screen, or none where the target is clipped; coordinates are not reduced (R105). -/
def onScreen (tx ty : Nat) : Option Pixel := if h : tx < 64 ∧ ty < 32 then some (⟨tx, h.1⟩, ⟨ty, h.2⟩) else none

/-- The targets of one sprite row at height `ty`: the set bits, most significant first, less the clipped ones (R105). -/
def rowTargets (px ty : Nat) (row : Byte) : List Pixel :=
  (List.range 8).filterMap fun c => if row.getLsbD (7 - c) then onScreen (px + c) ty else none

/-- The targets of a sprite whose first row is at height `py`, row by row (R101, R105). -/
def spriteTargets (px : Nat) : Nat → List Byte → List Pixel
  | _, [] => []
  | py, row :: rows => rowTargets px py row ++ spriteTargets px (py + 1) rows

end Sys2Proof.Machine
end

