-- ==== Sys2Proof/Machine/Flags.lean ====
section
/-! DEFINITION. The flag computations: carry, no borrow, the bit shifted out and the collision, all in `VF` (R35, R140,
R141, R150, R152, R154, R106). -/

namespace Sys2Proof.Machine

/-- A flag's value: 1 or 0. -/
def flagByte (b : Bool) : Byte := if b then 1#8 else 0#8

/-- `add_with_carry(a, b)` (R141). -/
def addWithCarry (a b : Byte) : Byte × Byte :=
  (BitVec.ofNat 8 (a.toNat + b.toNat), flagByte (decide (a.toNat + b.toNat > 255)))

/-- `sub_with_borrow(a, b)`: the second value is "no borrow" (R141). -/
def subWithBorrow (a b : Byte) : Byte × Byte := (a - b, flagByte (decide (a.toNat ≥ b.toNat)))

/-- The bit that a right shift moves out (R150). -/
def shrFlag (a : Byte) : Byte := a &&& 1#8

/-- The value shifted right by one (R150). -/
def shrResult (a : Byte) : Byte := a >>> 1

/-- The bit that a left shift moves out (R152). -/
def shlFlag (a : Byte) : Byte := (a >>> 7) &&& 1#8

/-- The value shifted left by one, wrapped (R152). -/
def shlResult (a : Byte) : Byte := a <<< 1

/-- `V[x] <- res`, then `VF <- flag`: with `x = 0xF` the flag stays (R140). -/
def writeThenFlag (x : Reg) (r : Byte × Byte) (s : State) : State := writeV VF r.2 (writeV x r.1 s)

/-- `VF <- flag`, then `V[x]` shifted in place, read again: with `x = 0xF` the flag is shifted (R154). -/
def flagThenShift (flag shift : Byte → Byte) (x : Reg) (s : State) : State :=
  let t := writeV VF (flag (readV x s)) s
  writeV x (shift (readV x t)) t

/-- A shift by one. `flagLast` is the parameter `SHIFT_FLAG_LAST`; it makes a difference only for `x = 0xF` (R154). -/
def shiftV (flagLast : Bool) (flag shift : Byte → Byte) (x : Reg) (s : State) : State :=
  if x == VF && flagLast then writeThenFlag x (shift (readV x s), flag (readV x s)) s
  else flagThenShift flag shift x s

end Sys2Proof.Machine
end

