-- ==== Sys2Proof/Machine/Alu.lean ====
section
/-! DEFINITION. The register and ALU instructions (43_alu.md). -/

namespace Sys2Proof.Machine

/-- LD_I, `6xnn` (R142). -/
def execLdI (x : Reg) (nn : Byte) (s : State) : Host.Outcome State Fault Refusal := finish false (writeV x nn s)

/-- ADD_I, `7xnn`: wraps, no flag (R143). -/
def execAddI (x : Reg) (nn : Byte) (s : State) : Host.Outcome State Fault Refusal :=
  finish false (writeV x (readV x s + nn) s)

/-- LD_R, `8xy0` (R144). -/
def execLdR (x y : Reg) (s : State) : Host.Outcome State Fault Refusal := finish false (writeV x (readV y s) s)

/-- OR, `8xy1`: `VF` is not reset (R145). -/
def execOr (x y : Reg) (s : State) : Host.Outcome State Fault Refusal :=
  finish false (writeV x (readV x s ||| readV y s) s)

/-- AND, `8xy2`: `VF` is not reset (R146). -/
def execAnd (x y : Reg) (s : State) : Host.Outcome State Fault Refusal :=
  finish false (writeV x (readV x s &&& readV y s) s)

/-- XOR, `8xy3`: `VF` is not reset (R147). -/
def execXor (x y : Reg) (s : State) : Host.Outcome State Fault Refusal :=
  finish false (writeV x (readV x s ^^^ readV y s) s)

/-- ADD_R, `8xy4` (R148). -/
def execAddR (x y : Reg) (s : State) : Host.Outcome State Fault Refusal :=
  finish false (writeThenFlag x (addWithCarry (readV x s) (readV y s)) s)

/-- SUB, `8xy5` (R149). -/
def execSub (x y : Reg) (s : State) : Host.Outcome State Fault Refusal :=
  finish false (writeThenFlag x (subWithBorrow (readV x s) (readV y s)) s)

/-- SHR, `8xy6`: shifts `V[x]`; `y` is ignored (R150, R154; log 7). -/
def execShr (x _y : Reg) (s : State) : Host.Outcome State Fault Refusal :=
  finish false (shiftV Config.shiftFlagLast shrFlag shrResult x s)

/-- SUBN, `8xy7` (R151). -/
def execSubn (x y : Reg) (s : State) : Host.Outcome State Fault Refusal :=
  finish false (writeThenFlag x (subWithBorrow (readV y s) (readV x s)) s)

/-- SHL, `8xyE`: shifts `V[x]`; `y` is ignored (R152, R154; log 7). -/
def execShl (x _y : Reg) (s : State) : Host.Outcome State Fault Refusal :=
  finish false (shiftV Config.shiftFlagLast shlFlag shlResult x s)

/-- RND, `Cxnn`: the host's byte, masked (R153, R216; log 5). -/
def execRnd (x : Reg) (nn : Byte) (s : State) : Host.Outcome State Fault Refusal :=
  finish false (writeV x (Config.randomByte s.hostAnswers &&& nn) (useAnswer s))

end Sys2Proof.Machine
end

