-- ==== Sys2Proof/Machine/ControlFlow.lean ====
section
/-! DEFINITION. Control flow: `00EE`, `1nnn`, `2nnn`, `Bxnn` (41_control_flow.md). -/

namespace Sys2Proof.Machine

/-- RET, `00EE`: the popped value is the call's own address and `jumped` stays false, so the epilogue passes the call; an
empty stack is `StackUnderflow` (R120, R201). -/
def execRet (s : State) : Host.Outcome State Fault Refusal :=
  match pop s with
  | none => raiseFault (.stackUnderflow s.pc) s
  | some (a, t) => finish false (setPc a t)

/-- JP, `1nnn` (R121). -/
def execJp (nnn : Addr) (s : State) : Host.Outcome State Fault Refusal := finish true (setPc (zextAddr nnn) s)

/-- CALL, `2nnn`: pushes its own address, not yet advanced (R122). -/
def execCall (nnn : Addr) (s : State) : Host.Outcome State Fault Refusal :=
  finish true (setPc (zextAddr nnn) (push s.pc s))

/-- JP_OFS, `Bxnn`: `pc <- zext16(nn) + zext16(V[x])` (R123). -/
def execJpOfs (x : Reg) (nn : Byte) (s : State) : Host.Outcome State Fault Refusal :=
  finish true (setPc (zextByte nn + zextByte (readV x s)) s)

end Sys2Proof.Machine
end

