-- ==== Sys2Proof/Machine/Display.lean ====
section
/-! DEFINITION. The display instructions `00E0` and `Dxyn` (40_display.md). -/

namespace Sys2Proof.Machine

/-- CLS, `00E0`: every pixel false; nothing is presented and `VF` is unchanged (R100). -/
def execCls (s : State) : Host.Outcome State Fault Refusal := finish false (setFb clearGrid s)

/-- Draw the rows at `(px, py)`: toggle the targets, `VF` is the collision, present once (R104 to R107). -/
def drawSprite (px py : Nat) (rows : List Byte) (s : State) : State :=
  let r := toggleAll (spriteTargets px py rows) s.fb
  present (setFb r.1 (writeV VF (flagByte r.2) s))

/-- DRW, `Dxyn`: the coordinates, `index` and all `n` rows are read, each address checked, before anything is written
(R101 to R103). -/
def execDrw (x y : Reg) (n : Count) (s : State) : Host.Outcome State Fault Refusal :=
  orRaise (loadBytes .read s.index.toNat n.val s) s fun rows =>
    finish false (drawSprite (readV x s).toNat (readV y s).toNat rows s)

end Sys2Proof.Machine
end

