-- ==== Sys2Proof/Machine/IndexMemory.lean ====
section
/-! DEFINITION. The index register and memory instructions (44_index_memory.md). -/

namespace Sys2Proof.Machine

/-- LD_IDX, `Annn` (R160). -/
def execLdIdx (nnn : Addr) (s : State) : Host.Outcome State Fault Refusal := finish false (setIndex (zextAddr nnn) s)

/-- ADD_IDX_V, `Fx1E`: wraps at 16 bits, no flag, no range check (R161). -/
def execAddIdxV (x : Reg) (s : State) : Host.Outcome State Fault Refusal :=
  finish false (setIndex (s.index + zextByte (readV x s)) s)

/-- LD_F_V, `Fx29` (R162). -/
def execLdFV (x : Reg) (s : State) : Host.Outcome State Fault Refusal :=
  finish false (setIndex (glyphAddr (readV x s)) s)

/-- LD_B_V, `Fx33` (R163). -/
def execLdBV (x : Reg) (s : State) : Host.Outcome State Fault Refusal :=
  orRaise (storeBytes s.index.toNat (decimalDigits (readV x s)) s) s (finish false)

/-- LD_MEM_V, `Fx55`: `index` is unchanged (R164). -/
def execLdMemV (x : Reg) (s : State) : Host.Outcome State Fault Refusal :=
  orRaise (storeBytes s.index.toNat (firstRegs x s) s) s (finish false)

/-- LD_V_MEM, `Fx65`: `index` is unchanged (R165). -/
def execLdVMem (x : Reg) (s : State) : Host.Outcome State Fault Refusal :=
  orRaise (loadBytes .read s.index.toNat (x.val + 1) s) s fun bs => finish false (setV (fillRegs 0 bs s.v) s)

end Sys2Proof.Machine
end

