-- ==== Sys2Proof/Machine/Skips.lean ====
section
/-! DEFINITION. The conditional skips (42_skips.md). -/

namespace Sys2Proof.Machine

/-- SE_I, `3xnn` (R130). -/
def execSeI (x : Reg) (nn : Byte) (s : State) : Host.Outcome State Fault Refusal :=
  finish false (skipIf (readV x s == nn) s)

/-- SNE_I, `4xnn` (R131). -/
def execSneI (x : Reg) (nn : Byte) (s : State) : Host.Outcome State Fault Refusal :=
  finish false (skipIf (readV x s != nn) s)

/-- SE_R, `5xy0` (R132). -/
def execSeR (x y : Reg) (s : State) : Host.Outcome State Fault Refusal :=
  finish false (skipIf (readV x s == readV y s) s)

/-- SNE_R, `9xy0` (R133). -/
def execSneR (x y : Reg) (s : State) : Host.Outcome State Fault Refusal :=
  finish false (skipIf (readV x s != readV y s) s)

/-- A key skip: `skips` says for which answer of `is_held` it skips; a key number above `0xF` is `KeyOutOfRange`, raised
before the call (R136). -/
def keySkip (skips : Bool → Bool) (x : Reg) (s : State) : Host.Outcome State Fault Refusal :=
  match keyOf (readV x s) with
  | none => raiseFault (.keyOutOfRange (readV x s) s.pc) s
  | some k => finish false (skipIf (skips (Config.isHeld s.hostAnswers k)) (useAnswer s))

/-- SKP, `Ex9E`: skip if the key is held (R134). -/
def execSkp (x : Reg) (s : State) : Host.Outcome State Fault Refusal := keySkip id x s

/-- SKNP, `ExA1`: skip if the key is not held (R135). -/
def execSknp (x : Reg) (s : State) : Host.Outcome State Fault Refusal := keySkip not x s

end Sys2Proof.Machine
end

