-- ==== Sys2Proof/Machine/TimersKeys.lean ====
section
/-! DEFINITION. The timer and key-wait instructions (45_timers_keys.md) and the host's tick (60_exceptions.md). -/

namespace Sys2Proof.Machine

/-- LD_V_DT, `Fx07` (R170). -/
def execLdVDt (x : Reg) (s : State) : Host.Outcome State Fault Refusal := finish false (writeV x s.dt s)

/-- LD_DT_V, `Fx15` (R171). -/
def execLdDtV (x : Reg) (s : State) : Host.Outcome State Fault Refusal := finish false (setDt (readV x s) s)

/-- LD_ST_V, `Fx18` (R172). -/
def execLdStV (x : Reg) (s : State) : Host.Outcome State Fault Refusal := finish false (setSt (readV x s) s)

/-- The effect of an answer of `poll()`: none changes nothing, a key goes to `V[x]` (R173). -/
def takeKey (x : Reg) (answer : Option Key) (s : State) : State :=
  match answer with
  | none => s
  | some k => writeV x (keyByte k) s

/-- LD_V_K, `Fx0A`: `poll()` decides; no key is a stall, that is `jumped` with nothing written (R173, R174; log 5). -/
def execLdVK (x : Reg) (s : State) : Host.Outcome State Fault Refusal :=
  finish (Config.poll s.hostAnswers).isNone (takeKey x (Config.poll s.hostAnswers) (useAnswer s))

/-! ## The tick, an operation of the host and no step (R210, R211) -/

/-- `if T > 0 then T <- T - 1`. -/
def countDown (t : Byte) : Byte := if t = 0#8 then 0#8 else t - 1#8

/-- `tick_timers()` (R210). -/
def tickTimers (s : State) : State := setSt (countDown s.st) (setDt (countDown s.dt) s)

/-- A timer after `n` ticks. -/
def countDownBy (n : Nat) (t : Byte) : Byte := if t = 0#8 then 0#8 else BitVec.ofNat 8 (t.toNat - n)

/-- `n` calls of `tick_timers()`, in one operation (`runTicks_succ` in Laws/Ops.lean says it is their iteration). -/
def runTicks (n : Nat) (s : State) : State := setSt (countDownBy n s.st) (setDt (countDownBy n s.dt) s)

/-- What the host does before a step: any number of ticks, a free value (R211; log 9). -/
def hostTurn (s : State) : State := useAnswer (runTicks (Config.hostTicks s.hostAnswers) s)

end Sys2Proof.Machine
end

