-- ==== Sys2Proof/Machine/Unrecognized.lean ====
section
/-! DEFINITION. The words that are no instruction (46_unrecognized.md). -/

namespace Sys2Proof.Machine

/-- UNRECOGNIZED: a silent no-op advance (R190). -/
def execUnrecognized (_w : Word) (s : State) : Host.Outcome State Fault Refusal := finish false s

end Sys2Proof.Machine
end

