-- ==== Sys2Proof/Machine/Cycle.lean ====
section
/-! DEFINITION. The core's own operations as the host calls them: `step()` (R74) and `new(rom)` (R230). The third,
`tick_timers()`, is in Machine/TimersKeys.lean. -/

namespace Sys2Proof.Machine

/-- `step()` of a running core: fetch, decode, execute and epilogue, or the fetch fault, which precludes decode (R74, R75,
R206). -/
def coreStep (s : State) : Host.Outcome State Fault Refusal :=
  orRaise (fetch s) s fun w => exec (decodeWord w) s

/-- `new(rom)`: the reset state with the image at `0x200`, or the failure when it does not fit (R230, R231, R235). -/
def new (rom : List Byte) : Except BootError State :=
  if Config.progStart + rom.length > Config.memSize then .error .romTooLarge
  else .ok (setMem (writeBytes Config.progStart rom State.reset.mem) State.reset)

/-- The two bytes of a word placed where the next fetch reads them, as far as those addresses exist. -/
def placeWord (w : Word) (s : State) : State :=
  match firstOutOfRange s.pc.toNat 2 with
  | some _ => s
  | none => setMem (writeBytes s.pc.toNat (wordBytes w) s.mem) s

end Sys2Proof.Machine
end

