-- ==== Sys2Proof/Machine/Step.lean ====
section
/-! DEFINITION. One step of the machine: the host's turn, any number of ticks (R211), then one `step()` of the core (R74).
A `Faulted` core takes no further step and no further tick: its recorded fault is the outcome (R44, R203). -/

namespace Sys2Proof.Machine

/-- One step (log 6, log 9). -/
def step (s : State) : Host.Outcome State Fault Refusal :=
  match s.status with
  | .faulted f => .fault f
  | .running => coreStep (hostTurn s)

/-- The instruction of an opcode-table row placed where `step` fetches next; the core runs (log 1). -/
def State.withFetchWord (s : State) (nbits w : Nat) : State := setStatus .running (placeWord (tableWord nbits w) s)

end Sys2Proof.Machine
end

