-- ==== Sys2Proof/Safety.lean ====
section
/-! DEFINITION. What counts as a safe run, and the terms the claims use: the parts of the state and what leaves them alone,
the invariant of every step, a parked core, the written registers and bytes of each instruction. -/

namespace Sys2Proof.Machine

/-! ## Frames -/

/-- The parts of the state. -/
inductive Part where
  | regs
  | pc
  | index
  | stack
  | delay
  | sound
  | memory
  | screen
  | frames
  | status
  | answers
  deriving DecidableEq, Repr

/-- A part reads the same in both states: every register, every byte of memory, every pixel, and the other parts whole. -/
def Part.same : Part → State → State → Prop
  | .regs, s, t => ∀ r, readV r t = readV r s
  | .pc, s, t => t.pc = s.pc
  | .index, s, t => t.index = s.index
  | .stack, s, t => t.stack = s.stack
  | .delay, s, t => t.dt = s.dt
  | .sound, s, t => t.st = s.st
  | .memory, s, t => ∀ a, readByte t.mem a = readByte s.mem a
  | .screen, s, t => ∀ p, pixelAt t.fb p = pixelAt s.fb p
  | .frames, s, t => t.presented = s.presented
  | .status, s, t => t.status = s.status
  | .answers, s, t => t.hostAnswers = s.hostAnswers

/-- Every part outside the list is unchanged. -/
def OnlyChanges (ps : List Part) (s t : State) : Prop := ∀ p, p ∉ ps → p.same s t

end Sys2Proof.Machine

namespace Sys2Proof
open Sys2Proof.Machine

/-- The parts that an instruction's own effect may change (R34, R39, R40, R41, R42, R53). -/
def Instr.parts : Instr → List Part
  | .cls => [.pc, .screen]
  | .ret | .call _ => [.pc, .stack]
  | .jp _ | .jpOfs _ _ => [.pc]
  | .seI _ _ | .sneI _ _ | .seR _ _ | .sneR _ _ => [.pc]
  | .ldI _ _ | .addI _ _ | .ldR _ _ | .or _ _ | .and _ _ | .xor _ _ => [.pc, .regs]
  | .addR _ _ | .sub _ _ | .shr _ _ | .subn _ _ | .shl _ _ => [.pc, .regs]
  | .ldIdx _ | .addIdxV _ | .ldFV _ => [.pc, .index]
  | .rnd _ _ | .ldVK _ => [.pc, .regs, .answers]
  | .drw _ _ _ => [.pc, .regs, .screen, .frames]
  | .skp _ | .sknp _ => [.pc, .answers]
  | .ldVDt _ | .ldVMem _ => [.pc, .regs]
  | .ldDtV _ => [.pc, .delay]
  | .ldStV _ => [.pc, .sound]
  | .ldBV _ | .ldMemV _ => [.pc, .memory]
  | .unrecognized _ => [.pc]

/-- The registers that an instruction may write: the "writes" column of R34. -/
def Instr.writesReg : Instr → Reg → Bool
  | .ldI x _, r | .addI x _, r | .ldR x _, r | .or x _, r | .and x _, r | .xor x _, r => r == x
  | .addR x _, r | .sub x _, r | .shr x _, r | .subn x _, r | .shl x _, r => r == x || r == VF
  | .rnd x _, r | .ldVDt x, r | .ldVK x, r => r == x
  | .drw _ _ _, r => r == VF
  | .ldVMem x, r => decide (r ≤ x)
  | .cls, _ | .ret, _ | .jp _, _ | .call _, _ | .ldIdx _, _ | .unrecognized _, _ => false
  | .seI _ _, _ | .sneI _ _, _ | .seR _ _, _ | .sneR _ _, _ | .jpOfs _ _, _ | .skp _, _ | .sknp _, _ => false
  | .ldDtV _, _ | .ldStV _, _ | .addIdxV _, _ | .ldFV _, _ | .ldBV _, _ | .ldMemV _, _ => false

/-- The registers that an instruction may read: the "reads" column of R34. -/
def Instr.readsReg : Instr → Reg → Bool
  | .seI x _, r | .sneI x _, r | .addI x _, r | .jpOfs x _, r | .shr x _, r | .shl x _, r => r == x
  | .seR x y, r | .sneR x y, r | .or x y, r | .and x y, r | .xor x y, r => r == x || r == y
  | .addR x y, r | .sub x y, r | .subn x y, r | .drw x y _, r => r == x || r == y
  | .ldR _ y, r => r == y
  | .skp x, r | .sknp x, r | .ldDtV x, r | .ldStV x, r | .addIdxV x, r | .ldFV x, r | .ldBV x, r => r == x
  | .ldMemV x, r => decide (r ≤ x)
  | .cls, _ | .ret, _ | .jp _, _ | .call _, _ | .ldIdx _, _ | .unrecognized _, _ => false
  | .ldI _ _, _ | .rnd _ _, _ | .ldVDt _, _ | .ldVK _, _ | .ldVMem _, _ => false

/-- The addresses that an instruction stores to: the write rows of R53. -/
def Instr.stores (i : Instr) (s : State) : List Nat :=
  match i with
  | .ldBV _ => accessList s.index.toNat 3
  | .ldMemV x => accessList s.index.toNat (x.val + 1)
  | _ => []

/-- The one access list of an instruction beside its fetch: kind and number of bytes from `index` (R53). -/
def Instr.access : Instr → Option (AccessKind × Nat)
  | .drw _ _ n => some (.read, n.val)
  | .ldBV _ => some (.write, 3)
  | .ldMemV x => some (.write, x.val + 1)
  | .ldVMem x => some (.read, x.val + 1)
  | _ => none

/-- The fault that an instruction raises in a state, if any: the table of R200, with the first bad address in access order
(R206). -/
def Instr.faultOf (i : Instr) (s : State) : Option Fault :=
  match i with
  | .ret => if s.stack = [] then some (.stackUnderflow s.pc) else none
  | .skp x | .sknp x => if 0xF < (readV x s).toNat then some (.keyOutOfRange (readV x s) s.pc) else none
  | _ =>
    match i.access with
    | none => none
    | some (kind, n) =>
      if n ≠ 0 ∧ Config.memSize < s.index.toNat + n then some (.memFault (max s.index.toNat Config.memSize) kind s.pc)
      else none

/-! ## Encodings -/

/-- Every word under a row's mask and match decodes to the instruction that `f` builds from the word (R83). -/
def Encoded (mask value : Word) (f : Word → Instr) : Prop := ∀ w, w &&& mask = value → decodeWord w = f w

/-- The mask and the match of an instruction's row (R83). -/
def Instr.row : Instr → Word × Word
  | .cls => (0xFFFF#16, 0x00E0#16)
  | .ret => (0xFFFF#16, 0x00EE#16)
  | .jp _ => (0xF000#16, 0x1000#16)
  | .call _ => (0xF000#16, 0x2000#16)
  | .seI _ _ => (0xF000#16, 0x3000#16)
  | .sneI _ _ => (0xF000#16, 0x4000#16)
  | .seR _ _ => (0xF000#16, 0x5000#16)
  | .ldI _ _ => (0xF000#16, 0x6000#16)
  | .addI _ _ => (0xF000#16, 0x7000#16)
  | .ldR _ _ => (0xF00F#16, 0x8000#16)
  | .or _ _ => (0xF00F#16, 0x8001#16)
  | .and _ _ => (0xF00F#16, 0x8002#16)
  | .xor _ _ => (0xF00F#16, 0x8003#16)
  | .addR _ _ => (0xF00F#16, 0x8004#16)
  | .sub _ _ => (0xF00F#16, 0x8005#16)
  | .shr _ _ => (0xF00F#16, 0x8006#16)
  | .subn _ _ => (0xF00F#16, 0x8007#16)
  | .shl _ _ => (0xF00F#16, 0x800E#16)
  | .sneR _ _ => (0xF000#16, 0x9000#16)
  | .ldIdx _ => (0xF000#16, 0xA000#16)
  | .jpOfs _ _ => (0xF000#16, 0xB000#16)
  | .rnd _ _ => (0xF000#16, 0xC000#16)
  | .drw _ _ _ => (0xF000#16, 0xD000#16)
  | .skp _ => (0xF0FF#16, 0xE09E#16)
  | .sknp _ => (0xF0FF#16, 0xE0A1#16)
  | .ldVDt _ => (0xF0FF#16, 0xF007#16)
  | .ldVK _ => (0xF0FF#16, 0xF00A#16)
  | .ldDtV _ => (0xF0FF#16, 0xF015#16)
  | .ldStV _ => (0xF0FF#16, 0xF018#16)
  | .addIdxV _ => (0xF0FF#16, 0xF01E#16)
  | .ldFV _ => (0xF0FF#16, 0xF029#16)
  | .ldBV _ => (0xF0FF#16, 0xF033#16)
  | .ldMemV _ => (0xF0FF#16, 0xF055#16)
  | .ldVMem _ => (0xF0FF#16, 0xF065#16)
  | .unrecognized _ => (0x0000#16, 0x0000#16)

/-- Whether the instruction is the fallback row. -/
def Instr.isUnrecognized : Instr → Bool
  | .unrecognized _ => true
  | _ => false

end Sys2Proof

namespace Sys2Proof.Machine

/-! ## Safe steps and the invariant -/

/-- A step that goes on running: no fault was raised. -/
def SafeStep (s : State) : Prop := ∃ t, step s = .next t ∧ t.status = .running

/-- What a recorded fault says of the state it was raised in (R200, R203). -/
def Fault.Recorded : Fault → State → Prop
  | .memFault a _ pc, s => Config.memSize ≤ a ∧ pc = s.pc
  | .stackUnderflow pc, s => s.stack = [] ∧ pc = s.pc
  | .keyOutOfRange k pc, s => 0xF < k.toNat ∧ (∃ x, readV x s = k) ∧ pc = s.pc

/-- Nothing but `V[r]` differs. -/
def AgreeOutside (r : Reg) (s t : State) : Prop := OnlyChanges [.regs] s t ∧ ∀ q, q ≠ r → readV q t = readV q s

/-- What every step keeps: memory is canonical, `pc` is at most `0x1002` (R38), every stack entry is the address of a
fetched call, and a recorded fault fits the state. -/
structure Inv (s : State) : Prop where
  memory : Memory.wf s.mem = true
  pcBound : s.pc.toNat ≤ 0x1002
  callSites : ∀ a ∈ s.stack, a.toNat ≤ 0xFFE
  record : ∀ f, s.status = .faulted f → f.Recorded s

/-! ## Drawing and parking -/

/-- Whether a sprite of `n` rows from `index`, drawn at `(px, py)`, has a set bit on a pixel: bit 7 of row `r` is column
offset 0; nothing wraps (R105). -/
def spriteBit (s : State) (px py n : Nat) (p : Pixel) : Bool :=
  decide (py ≤ p.2.val) && decide (p.2.val < py + n) && decide (px ≤ p.1.val) && decide (p.1.val < px + 8) &&
    (readByte s.mem (s.index.toNat + (p.2.val - py))).getLsbD (7 - (p.1.val - px))

/-- The core is parked: the word at `pc` is a jump to `pc` itself (R221). -/
def Parked (s : State) : Prop :=
  s.status = .running ∧ s.pc.toNat + 1 < Config.memSize ∧
    ∃ nnn, decodeWord (wordAt s.mem s.pc.toNat) = .jp nnn ∧ nnn.toNat = s.pc.toNat

end Sys2Proof.Machine
end

