-- ==== Sys2Proof/Certificates/Slice0/Obligations.lean ====
section
/-! DEFINITION. The statements for the provers, from the spec's numbered rules. A statement about an instruction has the
clause for its encoding (which words are it), the clause for its effect (what the next state is, register by register, byte by
byte, pixel by pixel, and that nothing else changes), and the clause for its fault where it has one. -/

open Sys2Proof Sys2Proof.Machine

/-! ## Encoding -/

/-- Decode and encode agree on every well-formed instruction, on words and on bytes (R71 to R73, R79, R83). -/
def Obligations.DecodeOfEncodeIsTheInstruction : Prop :=
  ∀ i : Instr, i.wellFormed = true →
    decodeWord (encode i) = i ∧ ∀ rest, decode (encodeBytes i ++ rest) = .ok (i, rest)

/-- Encoding what a word decodes to gives the word back; of groups 5 and 9 the ignored low nibble comes back as 0 (R80, R84). -/
def Obligations.EncodeOfDecodeIsTheWord : Prop :=
  ∀ w : Word, encode (decodeWord w) = if opField w = 0x5 ∨ opField w = 0x9 then w &&& 0xFFF0#16 else w

/-- Every word decodes to a well-formed instruction, and exactly R81's words are unrecognized. -/
def Obligations.UnrecognizedWordsAreThoseListed : Prop :=
  ∀ w : Word, (decodeWord w).wellFormed = true ∧ (decodeWord w = .unrecognized w ↔ unrecognizedWord w = true) ∧
    ((decodeWord w).isUnrecognized = true ↔ unrecognizedWord w = true)

/-- The opcode map: a word is an instruction exactly when it matches the instruction's row; the fallback is tried last (R83). -/
def Obligations.OpcodeMapSelectsTheRow : Prop :=
  (∀ (w : Word) (i : Instr), i.isUnrecognized = false →
    (w &&& i.row.1 = i.row.2 ↔ (decodeWord w).row = i.row)) ∧
  (∀ w : Word, (∀ i : Instr, i.isUnrecognized = false → w &&& i.row.1 ≠ i.row.2) → decodeWord w = .unrecognized w)

/-- The six fields of a word (R71). -/
def Obligations.FieldsOfAWord : Prop :=
  ∀ w : Word,
    (opField w).val = w.toNat / 4096 ∧ (xField w).val = w.toNat / 256 % 16 ∧ (yField w).val = w.toNat / 16 % 16 ∧
    (nField w).val = w.toNat % 16 ∧ (nnField w).toNat = w.toNat % 256 ∧ (nnnField w).toNat = w.toNat % 4096 ∧
    (nnField w).toNat = (yField w).val * 16 + (nField w).val ∧
    (nnnField w).toNat = (xField w).val * 256 + (nnField w).toNat

/-- Words of the spec's decoder table (95_test_vectors.md, L2-FE), one sanity check. -/
def Obligations.WordsOfTheDecoderTable : Prop :=
  decodeWord 0x00E0#16 = .cls ∧ decodeWord 0x00EE#16 = .ret ∧ decodeWord 0x01E0#16 = .unrecognized 0x01E0#16 ∧
  decodeWord 0x10E0#16 = .jp 0x0E0#12 ∧ decodeWord 0x5121#16 = .seR 1 2 ∧ decodeWord 0x912F#16 = .sneR 1 2 ∧
  decodeWord 0xB512#16 = .jpOfs 5 0x12#8 ∧ decodeWord 0xD120#16 = .drw 1 2 0 ∧ decodeWord 0x812E#16 = .shl 1 2 ∧
  decodeWord 0x8128#16 = .unrecognized 0x8128#16 ∧ decodeWord 0xE19E#16 = .skp 1 ∧ decodeWord 0xE1A1#16 = .sknp 1 ∧
  decodeWord 0xF10A#16 = .ldVK 1 ∧ decodeWord 0xF165#16 = .ldVMem 1 ∧ decodeWord 0xF115#16 = .ldDtV 1

/-! ## The instruction cycle -/

/-- A step of a running core is the host's turn (log 9) and then the instruction at `pc`, read big-endian (R54, R74). -/
def Obligations.StepRunsTheDecodedInstruction : Prop :=
  ∀ (s : State) (i : Instr), s.status = .running → s.pc.toNat + 1 < 0x1000 →
    decodeWord (joinBytes (readByte s.mem s.pc.toNat) (readByte s.mem (s.pc.toNat + 1))) = i →
    i.wellFormed = true ∧ step s = exec i (hostTurn s) ∧ coreStep s = exec i s

/-- The fetch fault: raised when `pc` or `pc + 1` is out of range, before any decode, with nothing else changed (R75). The
word fetched otherwise is `mem[pc]` and `mem[pc + 1]`, the first the high byte. -/
def Obligations.FetchFaultsOutOfRange : Prop :=
  (∀ s : State, 0xFFF ≤ s.pc.toNat →
    coreStep s = .next (setStatus (.faulted (.memFault (max s.pc.toNat 0x1000) .fetch s.pc)) s)) ∧
  (∀ s : State, s.pc.toNat < 0xFFF →
    ∃ w : Word, w.toNat = (readByte s.mem s.pc.toNat).toNat * 256 + (readByte s.mem (s.pc.toNat + 1)).toNat ∧
      coreStep s = exec (decodeWord w) s)

/-- The faults of R200, exactly: an instruction of a running core raises the fault of the table where its condition holds,
with the recorded information, and otherwise goes on running. No instruction stops the model in any other way (R82). -/
def Obligations.FaultsAreExactlyThoseOfTheTable : Prop :=
  ∀ (i : Instr) (s : State), s.status = .running →
    (∀ f, i.faultOf s = some f → exec i s = .next (setStatus (.faulted f) s)) ∧
    (i.faultOf s = none → ∃ t, exec i s = .next t ∧ t.status = .running)

/-- The effect of a fault: the raising step changes nothing but `status`, and a `Faulted` core takes no further step, its
step answering the recorded fault (R203; the outcome of such a step is the model's choice, log 6). -/
def Obligations.FaultChangesOnlyStatus : Prop :=
  (∀ (s t : State) (f : Fault), s.status = .running → coreStep s = .next t → t.status = .faulted f →
    t = setStatus (.faulted f) s) ∧
  (∀ (s : State) (f : Fault), s.status = .faulted f → step s = .fault f)

/-! ## Frames of the whole instruction set -/

/-- Every instruction changes only the parts of the state that are its own, and the status if it faults (R34, R39 to R42,
R53, R66). -/
def Obligations.EveryInstructionChangesOnlyItsParts : Prop :=
  ∀ (i : Instr) (s t : State), exec i s = .next t → OnlyChanges (.status :: i.parts) s t

/-- The "writes" column of R34: every register but those named there is unchanged. -/
def Obligations.OnlyDestinationRegistersChange : Prop :=
  ∀ (i : Instr) (s t : State) (r : Reg), exec i s = .next t → i.writesReg r = false → readV r t = readV r s

/-- The "reads" column of R34: a register that an instruction does not read has no influence on anything but itself. The two
runs stand at the same counter `hostAnswers`, so for RND, SKP, SKNP and LD_V_K both get the same answers of the host: that is
the model's form of the answers (log 5), and R34 does not say it. -/
def Obligations.OnlyReadRegistersMatter : Prop :=
  ∀ (i : Instr) (s t u : State) (r : Reg) (b : Byte), i.readsReg r = false → exec i s = .next t →
    exec i (writeV r b s) = .next u → AgreeOutside r t u

/-- No instruction reads the sound timer (R41): its value has no influence on anything but itself. The two runs stand at the
same counter `hostAnswers`, so for RND, SKP, SKNP and LD_V_K both get the same answers of the host: that is the model's form of
the answers (log 5), and R41 does not say it. -/
def Obligations.SoundTimerIsNeverRead : Prop :=
  ∀ (i : Instr) (s t u : State) (b : Byte), exec i s = .next t → exec i (setSt b s) = .next u → OnlyChanges [.sound] t u

/-- The stores of R53: every byte of memory outside the instruction's store list is unchanged; all of memory for an
instruction that stores nothing. -/
def Obligations.OnlyStoredBytesChange : Prop :=
  ∀ (i : Instr) (s t : State), exec i s = .next t → ∀ a, a ∉ i.stores s → readByte t.mem a = readByte s.mem a

/-- The ways of moving `pc` (R36, R76 to R78): of an instruction that does not fault. -/
def Obligations.PcMovesInTheListedWays : Prop :=
  ∀ (i : Instr) (s t : State), exec i s = .next t → i.faultOf s = none →
    match i with
    | .jp nnn | .call nnn => t.pc.toNat = nnn.toNat
    | .jpOfs x nn => t.pc.toNat = nn.toNat + (readV x s).toNat
    | .ret => ∃ a, s.stack.getLast? = some a ∧ t.pc = a + 2#16
    | .seI _ _ | .sneI _ _ | .seR _ _ | .sneR _ _ | .skp _ | .sknp _ => t.pc = s.pc + 2#16 ∨ t.pc = s.pc + 4#16
    | .ldVK _ => t.pc = s.pc ∨ t.pc = s.pc + 2#16
    | _ => t.pc = s.pc + 2#16

/-! ## Invariants -/

/-- Every step keeps the invariant: canonical memory, the bound of R38 on `pc`, stack entries that are addresses of fetched
calls, and a fault record that fits. -/
def Obligations.StepKeepsTheInvariant : Prop := ∀ s t : State, Inv s → step s = .next t → Inv t

/-- The invariant holds right after reset. -/
def Obligations.ResetMeetsTheInvariant : Prop := Inv State.reset

/-- A step presents at most one frame, the framebuffer as it then stands, and takes none back (R107, R214). -/
def Obligations.PresentedFramesOnlyGrow : Prop :=
  ∀ s t : State, step s = .next t → t.presented = s.presented ∨ t.presented = s.presented ++ [t.fb]

/-! ## Construction and ticks -/

/-- The reset values (R46, R235): after `new(rom)` succeeds, for every image that fits. -/
def Obligations.NewLeavesTheResetValues : Prop :=
  ∀ (rom : List Byte) (t : State), new rom = .ok t →
    (∀ k, k < 80 → readByte t.mem k = Config.font k) ∧ (∀ a, 80 ≤ a → a < 0x200 → readByte t.mem a = 0#8) ∧
    (∀ k (h : k < rom.length), readByte t.mem (0x200 + k) = rom[k]) ∧
    (∀ a, 0x200 + rom.length ≤ a → readByte t.mem a = 0#8) ∧
    (∀ r, readV r t = 0#8) ∧ t.pc = 0x200#16 ∧ t.index = 0#16 ∧ t.stack = [] ∧ t.dt = 0#8 ∧ t.st = 0#8 ∧
    t.fb = Config.fbInit ∧ t.status = .running

/-- Construction fails exactly when the image does not fit; an empty image gives the reset state (R230, R231). -/
def Obligations.NewFailsExactlyWhenTheImageOverflows : Prop :=
  (∀ rom : List Byte, 0x200 + rom.length > 0x1000 → new rom = .error .romTooLarge) ∧
  (∀ rom : List Byte, 0x200 + rom.length ≤ 0x1000 → ∃ t, new rom = .ok t) ∧ new [] = .ok State.reset

/-- `tick_timers()`: each timer down by 1 with floor 0, nothing else changes, and two calls decrement twice (R210). -/
def Obligations.TickDecrementsEachTimer : Prop :=
  ∀ s : State, (tickTimers s).dt.toNat = s.dt.toNat - 1 ∧ (tickTimers s).st.toNat = s.st.toNat - 1 ∧
    OnlyChanges [.delay, .sound] s (tickTimers s) ∧
    (tickTimers (tickTimers s)).dt.toNat = s.dt.toNat - 2 ∧ (tickTimers (tickTimers s)).st.toNat = s.st.toNat - 2

/-- What the host does before a step is some number of calls of `tick_timers()`, and one answer used (R211; log 9). -/
def Obligations.HostTurnIsSomeNumberOfTicks : Prop :=
  (∀ (n : Nat) (s : State), runTicks n s = Nat.iterate tickTimers n s) ∧
  (∀ s : State, ∃ n, hostTurn s = useAnswer (Nat.iterate tickTimers n s))

/-! ## Display instructions -/

/-- CLS (R100). -/
def Obligations.ClsClearsTheScreen : Prop :=
  Encoded 0xFFFF#16 0x00E0#16 (fun _ => .cls) ∧
  ∀ s : State, ∃ t, exec .cls s = .next t ∧ t.pc = s.pc + 2#16 ∧ (∀ p, pixelAt t.fb p = false) ∧
    OnlyChanges [.pc, .screen] s t

/-- DRW (R101 to R107): every pixel is inverted exactly where the sprite has a set bit on the screen, `VF` is 1 exactly when
such a pixel was lit and else 0, and the frame is presented once; a row address out of range faults first. -/
def Obligations.DrwDrawsTheSprite : Prop :=
  Encoded 0xF000#16 0xD000#16 (fun w => .drw (xField w) (yField w) (nField w)) ∧
  (∀ (x y : Reg) (n : Count) (s : State), n.val = 0 ∨ s.index.toNat + n.val ≤ 0x1000 →
    ∃ t, exec (.drw x y n) s = .next t ∧ t.pc = s.pc + 2#16 ∧
      (∀ p, pixelAt t.fb p = (pixelAt s.fb p ^^ spriteBit s (readV x s).toNat (readV y s).toNat n.val p)) ∧
      (readV VF t = 0#8 ∨ readV VF t = 1#8) ∧
      (readV VF t = 1#8 ↔
        ∃ p, pixelAt s.fb p = true ∧ spriteBit s (readV x s).toNat (readV y s).toNat n.val p = true) ∧
      (∀ r, r ≠ VF → readV r t = readV r s) ∧ t.presented = s.presented ++ [t.fb] ∧
      OnlyChanges [.pc, .regs, .screen, .frames] s t) ∧
  (∀ (x y : Reg) (n : Count) (s : State), n.val ≠ 0 → 0x1000 < s.index.toNat + n.val →
    exec (.drw x y n) s =
      .next (setStatus (.faulted (.memFault (max s.index.toNat 0x1000) .read s.pc)) s))

/-- Drawing the same sprite twice restores the screen, and `VF` is 1 after the second draw exactly when the sprite has a
set bit on a pixel that was dark before the first (the property of 95_test_vectors.md L1-5 with the premises of C6). -/
def Obligations.DrawingTwiceRestoresTheScreen : Prop :=
  ∀ (x y : Reg) (n : Count) (s t u : State), x ≠ VF → y ≠ VF → s.status = .running → exec (.drw x y n) s = .next t →
    t.status = .running → exec (.drw x y n) t = .next u →
    u.status = .running ∧ (∀ p, pixelAt u.fb p = pixelAt s.fb p) ∧
      (readV VF u = 1#8 ↔
        ∃ p, pixelAt s.fb p = false ∧ spriteBit s (readV x s).toNat (readV y s).toNat n.val p = true)

/-! ## Control flow -/

/-- RET (R120, R201): the popped value is the call's own address and the default advance passes it; an empty stack faults. -/
def Obligations.RetReturnsPastTheCall : Prop :=
  Encoded 0xFFFF#16 0x00EE#16 (fun _ => .ret) ∧
  (∀ (s : State) (l : List Word) (a : Word), s.stack = l ++ [a] →
    ∃ t, exec .ret s = .next t ∧ t.pc = a + 2#16 ∧ t.stack = l ∧ OnlyChanges [.pc, .stack] s t) ∧
  (∀ s : State, s.stack = [] → exec .ret s = .next (setStatus (.faulted (.stackUnderflow s.pc)) s))

/-- JP (R121). -/
def Obligations.JpJumps : Prop :=
  Encoded 0xF000#16 0x1000#16 (fun w => .jp (nnnField w)) ∧
  ∀ (nnn : Addr) (s : State), ∃ t, exec (.jp nnn) s = .next t ∧ t.pc.toNat = nnn.toNat ∧ OnlyChanges [.pc] s t

/-- CALL (R122): pushes its own address, not yet advanced. -/
def Obligations.CallPushesItsOwnAddress : Prop :=
  Encoded 0xF000#16 0x2000#16 (fun w => .call (nnnField w)) ∧
  ∀ (nnn : Addr) (s : State), ∃ t, exec (.call nnn) s = .next t ∧ t.pc.toNat = nnn.toNat ∧
    t.stack = s.stack ++ [s.pc] ∧ OnlyChanges [.pc, .stack] s t

/-- A call and the return that finds its stack: `pc` is just after the call and the stack as before it (95_test_vectors.md
L1-9, C1). -/
def Obligations.RetAfterCallLandsAfterTheCall : Prop :=
  ∀ (nnn : Addr) (s t u w : State), exec (.call nnn) s = .next t → u.stack = t.stack → exec .ret u = .next w →
    w.pc = s.pc + 2#16 ∧ w.stack = s.stack

/-- JP_OFS (R123): the low byte plus `V[x]`. -/
def Obligations.JpOfsJumpsToLowBytePlusRegister : Prop :=
  Encoded 0xF000#16 0xB000#16 (fun w => .jpOfs (xField w) (nnField w)) ∧
  ∀ (x : Reg) (nn : Byte) (s : State), ∃ t, exec (.jpOfs x nn) s = .next t ∧
    t.pc.toNat = nn.toNat + (readV x s).toNat ∧ OnlyChanges [.pc] s t

/-! ## Skips -/

/-- SE_I and SNE_I (R130, R131). -/
def Obligations.SkipsOnTheImmediate : Prop :=
  Encoded 0xF000#16 0x3000#16 (fun w => .seI (xField w) (nnField w)) ∧
  Encoded 0xF000#16 0x4000#16 (fun w => .sneI (xField w) (nnField w)) ∧
  (∀ (x : Reg) (nn : Byte) (s : State), ∃ t, exec (.seI x nn) s = .next t ∧
    t.pc = (if readV x s = nn then s.pc + 4#16 else s.pc + 2#16) ∧ OnlyChanges [.pc] s t) ∧
  (∀ (x : Reg) (nn : Byte) (s : State), ∃ t, exec (.sneI x nn) s = .next t ∧
    t.pc = (if readV x s = nn then s.pc + 2#16 else s.pc + 4#16) ∧ OnlyChanges [.pc] s t)

/-- SE_R and SNE_R (R132, R133): bits 3:0 are ignored. -/
def Obligations.SkipsOnTheRegister : Prop :=
  Encoded 0xF000#16 0x5000#16 (fun w => .seR (xField w) (yField w)) ∧
  Encoded 0xF000#16 0x9000#16 (fun w => .sneR (xField w) (yField w)) ∧
  (∀ (x y : Reg) (s : State), ∃ t, exec (.seR x y) s = .next t ∧
    t.pc = (if readV x s = readV y s then s.pc + 4#16 else s.pc + 2#16) ∧ OnlyChanges [.pc] s t) ∧
  (∀ (x y : Reg) (s : State), ∃ t, exec (.sneR x y) s = .next t ∧
    t.pc = (if readV x s = readV y s then s.pc + 2#16 else s.pc + 4#16) ∧ OnlyChanges [.pc] s t)

/-- SKP and SKNP on a key (R134, R135): the host's answer for the key `V[x]` decides. That the answer is the free value at
the counter, and that the counter advances, is the model's (log 5). -/
def Obligations.SkipsOnTheKey : Prop :=
  Encoded 0xF0FF#16 0xE09E#16 (fun w => .skp (xField w)) ∧
  Encoded 0xF0FF#16 0xE0A1#16 (fun w => .sknp (xField w)) ∧
  (∀ (x : Reg) (k : Key) (s : State), (readV x s).toNat = k.val → ∃ t, exec (.skp x) s = .next t ∧
    t.pc = (if Config.isHeld s.hostAnswers k = true then s.pc + 4#16 else s.pc + 2#16) ∧
    t.hostAnswers = s.hostAnswers + 1 ∧ OnlyChanges [.pc, .answers] s t) ∧
  (∀ (x : Reg) (k : Key) (s : State), (readV x s).toNat = k.val → ∃ t, exec (.sknp x) s = .next t ∧
    t.pc = (if Config.isHeld s.hostAnswers k = true then s.pc + 2#16 else s.pc + 4#16) ∧
    t.hostAnswers = s.hostAnswers + 1 ∧ OnlyChanges [.pc, .answers] s t)

/-- SKP and SKNP on a value that is no key: `KeyOutOfRange`, with the value and `pc` recorded and nothing else changed
(R136). -/
def Obligations.KeyNumbersAboveFifteenFault : Prop :=
  ∀ (x : Reg) (s : State), 0xF < (readV x s).toNat →
    exec (.skp x) s = .next (setStatus (.faulted (.keyOutOfRange (readV x s) s.pc)) s) ∧
    exec (.sknp x) s = .next (setStatus (.faulted (.keyOutOfRange (readV x s) s.pc)) s)

/-! ## Registers and ALU -/

/-- LD_I (R142). -/
def Obligations.LdISetsTheRegister : Prop :=
  Encoded 0xF000#16 0x6000#16 (fun w => .ldI (xField w) (nnField w)) ∧
  ∀ (x : Reg) (nn : Byte) (s : State), ∃ t, exec (.ldI x nn) s = .next t ∧ t.pc = s.pc + 2#16 ∧
    (∀ r, readV r t = if r = x then nn else readV r s) ∧ OnlyChanges [.pc, .regs] s t

/-- ADD_I (R143): wraps, and no flag. -/
def Obligations.AddIAddsWithoutFlag : Prop :=
  Encoded 0xF000#16 0x7000#16 (fun w => .addI (xField w) (nnField w)) ∧
  ∀ (x : Reg) (nn : Byte) (s : State), ∃ t, exec (.addI x nn) s = .next t ∧ t.pc = s.pc + 2#16 ∧
    (∀ r, readV r t = if r = x then BitVec.ofNat 8 ((readV x s).toNat + nn.toNat) else readV r s) ∧
    OnlyChanges [.pc, .regs] s t

/-- LD_R (R144). -/
def Obligations.LdRCopies : Prop :=
  Encoded 0xF00F#16 0x8000#16 (fun w => .ldR (xField w) (yField w)) ∧
  ∀ (x y : Reg) (s : State), ∃ t, exec (.ldR x y) s = .next t ∧ t.pc = s.pc + 2#16 ∧
    (∀ r, readV r t = if r = x then readV y s else readV r s) ∧ OnlyChanges [.pc, .regs] s t

/-- OR, AND, XOR (R145 to R147): bit by bit, and `VF` is not reset. -/
def Obligations.LogicOperationsBitByBit : Prop :=
  Encoded 0xF00F#16 0x8001#16 (fun w => .or (xField w) (yField w)) ∧
  Encoded 0xF00F#16 0x8002#16 (fun w => .and (xField w) (yField w)) ∧
  Encoded 0xF00F#16 0x8003#16 (fun w => .xor (xField w) (yField w)) ∧
  (∀ (x y : Reg) (s : State), ∃ t, exec (.or x y) s = .next t ∧ t.pc = s.pc + 2#16 ∧
    (∀ k, (readV x t).getLsbD k = ((readV x s).getLsbD k || (readV y s).getLsbD k)) ∧
    (∀ r, r ≠ x → readV r t = readV r s) ∧ OnlyChanges [.pc, .regs] s t) ∧
  (∀ (x y : Reg) (s : State), ∃ t, exec (.and x y) s = .next t ∧ t.pc = s.pc + 2#16 ∧
    (∀ k, (readV x t).getLsbD k = ((readV x s).getLsbD k && (readV y s).getLsbD k)) ∧
    (∀ r, r ≠ x → readV r t = readV r s) ∧ OnlyChanges [.pc, .regs] s t) ∧
  (∀ (x y : Reg) (s : State), ∃ t, exec (.xor x y) s = .next t ∧ t.pc = s.pc + 2#16 ∧
    (∀ k, (readV x t).getLsbD k = ((readV x s).getLsbD k ^^ (readV y s).getLsbD k)) ∧
    (∀ r, r ≠ x → readV r t = readV r s) ∧ OnlyChanges [.pc, .regs] s t)

/-- ADD_R (R148): the sum modulo 256, then `VF` the carry, written last. -/
def Obligations.AddRAddsWithCarry : Prop :=
  Encoded 0xF00F#16 0x8004#16 (fun w => .addR (xField w) (yField w)) ∧
  ∀ (x y : Reg) (s : State), ∃ t, exec (.addR x y) s = .next t ∧ t.pc = s.pc + 2#16 ∧
    (∀ r, readV r t =
      if r = VF then (if (readV x s).toNat + (readV y s).toNat > 255 then 1#8 else 0#8)
      else if r = x then BitVec.ofNat 8 ((readV x s).toNat + (readV y s).toNat) else readV r s) ∧
    OnlyChanges [.pc, .regs] s t

/-- SUB (R149): the difference modulo 256, then `VF` is 1 when there is no borrow, written last. -/
def Obligations.SubSubtractsWithNoBorrowFlag : Prop :=
  Encoded 0xF00F#16 0x8005#16 (fun w => .sub (xField w) (yField w)) ∧
  ∀ (x y : Reg) (s : State), ∃ t, exec (.sub x y) s = .next t ∧ t.pc = s.pc + 2#16 ∧
    (∀ r, readV r t =
      if r = VF then (if (readV x s).toNat ≥ (readV y s).toNat then 1#8 else 0#8)
      else if r = x then BitVec.ofNat 8 (256 + (readV x s).toNat - (readV y s).toNat) else readV r s) ∧
    OnlyChanges [.pc, .regs] s t

/-- SUBN (R151): `V[y] - V[x]`. -/
def Obligations.SubnSubtractsReversed : Prop :=
  Encoded 0xF00F#16 0x8007#16 (fun w => .subn (xField w) (yField w)) ∧
  ∀ (x y : Reg) (s : State), ∃ t, exec (.subn x y) s = .next t ∧ t.pc = s.pc + 2#16 ∧
    (∀ r, readV r t =
      if r = VF then (if (readV y s).toNat ≥ (readV x s).toNat then 1#8 else 0#8)
      else if r = x then BitVec.ofNat 8 (256 + (readV y s).toNat - (readV x s).toNat) else readV r s) ∧
    OnlyChanges [.pc, .regs] s t

/-- SHR and SHL (R150, R152, R154): `y` is ignored; with `x = 0xF` the parameter `SHIFT_FLAG_LAST` decides between the flag
and the shifted flag, which is 0 after a right shift and 2 or 0 after a left shift. -/
def Obligations.ShrAndShlShiftByOne : Prop :=
  Encoded 0xF00F#16 0x8006#16 (fun w => .shr (xField w) (yField w)) ∧
  Encoded 0xF00F#16 0x800E#16 (fun w => .shl (xField w) (yField w)) ∧
  (∀ (x y : Reg) (s : State), ∃ t, exec (.shr x y) s = .next t ∧ t.pc = s.pc + 2#16 ∧
    (∀ r, readV r t =
      if r = VF then
        if x = VF ∧ Config.shiftFlagLast = false then 0#8 else BitVec.ofNat 8 ((readV x s).toNat % 2)
      else if r = x then BitVec.ofNat 8 ((readV x s).toNat / 2) else readV r s) ∧
    OnlyChanges [.pc, .regs] s t) ∧
  (∀ (x y : Reg) (s : State), ∃ t, exec (.shl x y) s = .next t ∧ t.pc = s.pc + 2#16 ∧
    (∀ r, readV r t =
      if r = VF then
        if x = VF ∧ Config.shiftFlagLast = false then BitVec.ofNat 8 (2 * ((readV x s).toNat / 128))
        else BitVec.ofNat 8 ((readV x s).toNat / 128)
      else if r = x then BitVec.ofNat 8 (2 * (readV x s).toNat) else readV r s) ∧
    OnlyChanges [.pc, .regs] s t)

/-- RND (R153, R216): the host's byte, whatever it is, masked; where the mask is 0 the result is 0. That the byte is the free
value at the counter, and that the counter advances, is the model's (log 5). -/
def Obligations.RndMasksTheHostsByte : Prop :=
  Encoded 0xF000#16 0xC000#16 (fun w => .rnd (xField w) (nnField w)) ∧
  ∀ (x : Reg) (nn : Byte) (s : State), ∃ t, exec (.rnd x nn) s = .next t ∧ t.pc = s.pc + 2#16 ∧
    (∀ r, readV r t = if r = x then Config.randomByte s.hostAnswers &&& nn else readV r s) ∧
    (∀ k, nn.getLsbD k = false → (readV x t).getLsbD k = false) ∧
    t.hostAnswers = s.hostAnswers + 1 ∧ OnlyChanges [.pc, .regs, .answers] s t

/-! ## Index register and memory -/

/-- LD_IDX (R160). -/
def Obligations.LdIdxSetsTheIndex : Prop :=
  Encoded 0xF000#16 0xA000#16 (fun w => .ldIdx (nnnField w)) ∧
  ∀ (nnn : Addr) (s : State), ∃ t, exec (.ldIdx nnn) s = .next t ∧ t.pc = s.pc + 2#16 ∧
    t.index.toNat = nnn.toNat ∧ OnlyChanges [.pc, .index] s t

/-- ADD_IDX_V (R161): wraps at 16 bits, no flag, no fault. -/
def Obligations.AddIdxVAddsToTheIndex : Prop :=
  Encoded 0xF0FF#16 0xF01E#16 (fun w => .addIdxV (xField w)) ∧
  ∀ (x : Reg) (s : State), ∃ t, exec (.addIdxV x) s = .next t ∧ t.pc = s.pc + 2#16 ∧
    t.index.toNat = (s.index.toNat + (readV x s).toNat) % 65536 ∧ OnlyChanges [.pc, .index] s t

/-- LD_F_V (R162): five times the whole value. -/
def Obligations.LdFVPointsAtTheGlyph : Prop :=
  Encoded 0xF0FF#16 0xF029#16 (fun w => .ldFV (xField w)) ∧
  ∀ (x : Reg) (s : State), ∃ t, exec (.ldFV x) s = .next t ∧ t.pc = s.pc + 2#16 ∧
    t.index.toNat = 5 * (readV x s).toNat ∧ OnlyChanges [.pc, .index] s t

/-- LD_B_V (R163): hundreds, tens and units at `index`, `index + 1`, `index + 2`; no other byte changes; out of range it
faults before any write. -/
def Obligations.LdBVStoresTheDecimalDigits : Prop :=
  Encoded 0xF0FF#16 0xF033#16 (fun w => .ldBV (xField w)) ∧
  (∀ (x : Reg) (s : State), Memory.wf s.mem = true → s.index.toNat + 2 < 0x1000 →
    ∃ t, exec (.ldBV x) s = .next t ∧ t.pc = s.pc + 2#16 ∧
      (readByte t.mem s.index.toNat).toNat = (readV x s).toNat / 100 ∧
      (readByte t.mem (s.index.toNat + 1)).toNat = (readV x s).toNat / 10 % 10 ∧
      (readByte t.mem (s.index.toNat + 2)).toNat = (readV x s).toNat % 10 ∧
      (∀ a, a ∉ accessList s.index.toNat 3 → readByte t.mem a = readByte s.mem a) ∧
      OnlyChanges [.pc, .memory] s t) ∧
  (∀ (x : Reg) (s : State), 0x1000 ≤ s.index.toNat + 2 →
    exec (.ldBV x) s = .next (setStatus (.faulted (.memFault (max s.index.toNat 0x1000) .write s.pc)) s))

/-- LD_MEM_V (R164): `V0` to `Vx` inclusive, `index` unchanged; no other byte changes; out of range it faults before any
write. -/
def Obligations.LdMemVStoresTheRegisters : Prop :=
  Encoded 0xF0FF#16 0xF055#16 (fun w => .ldMemV (xField w)) ∧
  (∀ (x : Reg) (s : State), Memory.wf s.mem = true → s.index.toNat + x.val < 0x1000 →
    ∃ t, exec (.ldMemV x) s = .next t ∧ t.pc = s.pc + 2#16 ∧
      (∀ r : Reg, r ≤ x → readByte t.mem (s.index.toNat + r.val) = readV r s) ∧
      (∀ a, a ∉ accessList s.index.toNat (x.val + 1) → readByte t.mem a = readByte s.mem a) ∧
      OnlyChanges [.pc, .memory] s t) ∧
  (∀ (x : Reg) (s : State), 0x1000 ≤ s.index.toNat + x.val →
    exec (.ldMemV x) s = .next (setStatus (.faulted (.memFault (max s.index.toNat 0x1000) .write s.pc)) s))

/-- LD_V_MEM (R165): `V0` to `Vx` inclusive, `index` and the registers above `x` unchanged; out of range it faults. -/
def Obligations.LdVMemLoadsTheRegisters : Prop :=
  Encoded 0xF0FF#16 0xF065#16 (fun w => .ldVMem (xField w)) ∧
  (∀ (x : Reg) (s : State), s.index.toNat + x.val < 0x1000 →
    ∃ t, exec (.ldVMem x) s = .next t ∧ t.pc = s.pc + 2#16 ∧
      (∀ r : Reg, readV r t = if r ≤ x then readByte s.mem (s.index.toNat + r.val) else readV r s) ∧
      OnlyChanges [.pc, .regs] s t) ∧
  (∀ (x : Reg) (s : State), 0x1000 ≤ s.index.toNat + x.val →
    exec (.ldVMem x) s = .next (setStatus (.faulted (.memFault (max s.index.toNat 0x1000) .read s.pc)) s))

/-- The round trip of R166: a dump, anything that leaves `index` and the dumped bytes alone, and a load with the same `x`
restore `V0` to `Vx`, provided neither faults. -/
def Obligations.LoadAfterDumpRestoresTheRegisters : Prop :=
  ∀ (x : Reg) (s t u w : State), Memory.wf s.mem = true → s.status = .running →
    exec (.ldMemV x) s = .next t → t.status = .running →
    u.index = t.index → (∀ r : Reg, r ≤ x → readByte u.mem (s.index.toNat + r.val) = readByte t.mem (s.index.toNat + r.val)) →
    exec (.ldVMem x) u = .next w → w.status = .running → ∀ r : Reg, r ≤ x → readV r w = readV r s

/-- Self-modifying code (R64): the fetch of a later step reads the bytes that a dump stored. -/
def Obligations.FetchSeesTheStoredBytes : Prop :=
  ∀ (x k l : Reg) (s t u : State), Memory.wf s.mem = true → s.status = .running → exec (.ldMemV x) s = .next t →
    t.status = .running → l.val = k.val + 1 → l ≤ x → u.mem = t.mem → u.pc.toNat = s.index.toNat + k.val →
    coreStep u = exec (decodeWord (joinBytes (readV k s) (readV l s))) u

/-! ## Timers and the key wait -/

/-- LD_V_DT (R170). -/
def Obligations.LdVDtReadsTheDelayTimer : Prop :=
  Encoded 0xF0FF#16 0xF007#16 (fun w => .ldVDt (xField w)) ∧
  ∀ (x : Reg) (s : State), ∃ t, exec (.ldVDt x) s = .next t ∧ t.pc = s.pc + 2#16 ∧
    (∀ r, readV r t = if r = x then s.dt else readV r s) ∧ OnlyChanges [.pc, .regs] s t

/-- LD_DT_V (R171). -/
def Obligations.LdDtVSetsTheDelayTimer : Prop :=
  Encoded 0xF0FF#16 0xF015#16 (fun w => .ldDtV (xField w)) ∧
  ∀ (x : Reg) (s : State), ∃ t, exec (.ldDtV x) s = .next t ∧ t.pc = s.pc + 2#16 ∧ t.dt = readV x s ∧
    OnlyChanges [.pc, .delay] s t

/-- LD_ST_V (R172). -/
def Obligations.LdStVSetsTheSoundTimer : Prop :=
  Encoded 0xF0FF#16 0xF018#16 (fun w => .ldStV (xField w)) ∧
  ∀ (x : Reg) (s : State), ∃ t, exec (.ldStV x) s = .next t ∧ t.pc = s.pc + 2#16 ∧ t.st = readV x s ∧
    OnlyChanges [.pc, .sound] s t

/-- LD_V_K (R173): the answer of `poll()` decides; without a key nothing of the core changes, with one it goes to `V[x]`.
That the answer is the free value at the counter, and that the counter advances, is the model's (log 5). -/
def Obligations.LdVKStallsUntilAKey : Prop :=
  Encoded 0xF0FF#16 0xF00A#16 (fun w => .ldVK (xField w)) ∧
  ∀ (x : Reg) (s : State), ∃ t, exec (.ldVK x) s = .next t ∧ t.hostAnswers = s.hostAnswers + 1 ∧
    match Config.poll s.hostAnswers with
    | none => OnlyChanges [.answers] s t
    | some k => t.pc = s.pc + 2#16 ∧ (readV x t).toNat = k.val ∧ (∀ r, r ≠ x → readV r t = readV r s) ∧
        OnlyChanges [.pc, .regs, .answers] s t

/-! ## Unrecognized words and parking -/

/-- UNRECOGNIZED (R190): only the default advance. -/
def Obligations.UnrecognizedWordsOnlyAdvance : Prop :=
  (∀ w : Word, unrecognizedWord w = true → decodeWord w = .unrecognized w) ∧
  ∀ (w : Word) (s : State), ∃ t, exec (.unrecognized w) s = .next t ∧ t.pc = s.pc + 2#16 ∧ OnlyChanges [.pc] s t

/-- A parked core stays parked: every step leaves all state unchanged except what ticks change, and the model's counter
(R221; log 5, log 9). -/
def Obligations.ParkedCoreStaysParked : Prop :=
  ∀ s : State, Parked s → ∃ t, step s = .next t ∧ Parked t ∧ OnlyChanges [.delay, .sound, .answers] s t
end

