-- ==== Sys2Proof/Laws/Decode.lean ====
section
/-! SUPPORT. The fields of a word: what a mask of R83 fixes, and what the encoder puts there. -/

namespace Sys2Proof

/-! ## Fields under a mask -/

theorem opField_mask (w : Word) : opField w = opField (w &&& 0xF000#16) := by
  refine congrArg BitVec.toFin (BitVec.eq_of_getLsbD_eq fun i hi => ?_)
  interval_cases i <;> simp

theorem nField_mask (w : Word) : nField w = nField (w &&& 0x000F#16) := by
  refine congrArg BitVec.toFin (BitVec.eq_of_getLsbD_eq fun i hi => ?_)
  interval_cases i <;> simp

theorem nnField_mask (w : Word) : nnField w = nnField (w &&& 0x00FF#16) := by
  refine BitVec.eq_of_getLsbD_eq fun i hi => ?_
  interval_cases i <;> simp [nnField]

theorem opField_of_mask {w : Word} {k : BitVec 16} (h : w &&& 0xF000#16 = k) : opField w = opField k := by
  rw [opField_mask, h]

theorem opField_of_maskN {w : Word} {k : BitVec 16} (h : w &&& 0xF00F#16 = k) : opField w = opField k := by
  rw [opField_mask, ← h, opField_mask (w &&& 0xF00F#16), BitVec.and_assoc]; rfl

theorem nField_of_maskN {w : Word} {k : BitVec 16} (h : w &&& 0xF00F#16 = k) : nField w = nField k := by
  rw [nField_mask, ← h, nField_mask (w &&& 0xF00F#16), BitVec.and_assoc]; rfl

theorem opField_of_maskNN {w : Word} {k : BitVec 16} (h : w &&& 0xF0FF#16 = k) : opField w = opField k := by
  rw [opField_mask, ← h, opField_mask (w &&& 0xF0FF#16), BitVec.and_assoc]; rfl

theorem nnField_of_maskNN {w : Word} {k : BitVec 16} (h : w &&& 0xF0FF#16 = k) : nnField w = nnField k := by
  rw [nnField_mask, ← h, nnField_mask (w &&& 0xF0FF#16), BitVec.and_assoc]; rfl

/-! ## Fields of an encoded word -/

section
variable (op : BitVec 4) (x y : Reg) (n : BitVec 4) (nn : Byte) (nnn : Addr) (i : Nat)

theorem encodeA_bit : (encodeA op nnn).getLsbD i = if i < 12 then nnn.getLsbD i else op.getLsbD (i - 12) := by
  exact BitVec.getLsbD_append

theorem encodeXNN_bit : (encodeXNN op x nn).getLsbD i =
    if i < 8 then nn.getLsbD i else if i < 12 then (nibble x).getLsbD (i - 8) else op.getLsbD (i - 12) := by
  have h1 : (encodeXNN op x nn).getLsbD i = if i < 8 then nn.getLsbD i else (op ++ nibble x).getLsbD (i - 8) := by
    exact BitVec.getLsbD_append
  have h2 : (op ++ nibble x).getLsbD (i - 8) = _ := BitVec.getLsbD_append
  rw [h1, h2]
  by_cases h : i < 8
  · simp [h]
  · by_cases h' : i < 12
    · simp [h, h', show i - 8 < 4 by omega]
    · simp [h, h', show ¬ (i - 8 < 4) by omega, show i - 8 - 4 = i - 12 by omega]

theorem encodeXYN_bit : (encodeXYN op x y n).getLsbD i =
    if i < 4 then n.getLsbD i else if i < 8 then (nibble y).getLsbD (i - 4)
    else if i < 12 then (nibble x).getLsbD (i - 8) else op.getLsbD (i - 12) := by
  have h1 : (encodeXYN op x y n).getLsbD i =
      if i < 4 then n.getLsbD i else (op ++ nibble x ++ nibble y).getLsbD (i - 4) := by
    exact BitVec.getLsbD_append
  have h2 : (op ++ nibble x ++ nibble y).getLsbD (i - 4) = _ := BitVec.getLsbD_append
  have h3 : (op ++ nibble x).getLsbD (i - 4 - 4) = _ := BitVec.getLsbD_append
  rw [h1, h2, h3]
  by_cases h : i < 4
  · simp [h]
  · by_cases h' : i < 8
    · simp [h, h', show i - 4 < 4 by omega]
    · by_cases h'' : i < 12
      · simp [h, h', h'', show ¬ (i - 4 < 4) by omega, show i - 8 < 4 by omega, show i - 4 - 4 = i - 8 by omega]
      · simp [h, h', h'', show ¬ (i - 4 < 4) by omega, show ¬ (i - 8 < 4) by omega,
          show i - 4 - 4 = i - 8 by omega, show i - 8 - 4 = i - 12 by omega]

@[simp] theorem opField_encodeA : opField (encodeA op nnn) = op.toFin := by
  refine congrArg BitVec.toFin (BitVec.eq_of_getLsbD_eq fun i hi => ?_)
  rw [BitVec.getLsbD_extractLsb', encodeA_bit]; simp [hi]

@[simp] theorem nnnField_encodeA : nnnField (encodeA op nnn) = nnn := by
  refine BitVec.eq_of_getLsbD_eq fun i hi => ?_
  rw [nnnField, BitVec.getLsbD_extractLsb', encodeA_bit]; simp [hi]

@[simp] theorem opField_encodeXNN : opField (encodeXNN op x nn) = op.toFin := by
  refine congrArg BitVec.toFin (BitVec.eq_of_getLsbD_eq fun i hi => ?_)
  rw [BitVec.getLsbD_extractLsb', encodeXNN_bit]
  simp [hi, show ¬ (12 + i < 8) by omega]

@[simp] theorem xField_encodeXNN : xField (encodeXNN op x nn) = x := by
  refine (congrArg BitVec.toFin (BitVec.eq_of_getLsbD_eq (y := nibble x) fun i hi => ?_)).trans rfl
  rw [BitVec.getLsbD_extractLsb', encodeXNN_bit]
  simp [hi, show 8 + i < 12 by omega]

@[simp] theorem nnField_encodeXNN : nnField (encodeXNN op x nn) = nn := by
  refine BitVec.eq_of_getLsbD_eq fun i hi => ?_
  rw [nnField, BitVec.getLsbD_extractLsb', encodeXNN_bit]; simp [hi]

@[simp] theorem opField_encodeXYN : opField (encodeXYN op x y n) = op.toFin := by
  refine congrArg BitVec.toFin (BitVec.eq_of_getLsbD_eq fun i hi => ?_)
  rw [BitVec.getLsbD_extractLsb', encodeXYN_bit]
  simp [hi, show ¬ (12 + i < 4) by omega, show ¬ (12 + i < 8) by omega]

@[simp] theorem xField_encodeXYN : xField (encodeXYN op x y n) = x := by
  refine (congrArg BitVec.toFin (BitVec.eq_of_getLsbD_eq (y := nibble x) fun i hi => ?_)).trans rfl
  rw [BitVec.getLsbD_extractLsb', encodeXYN_bit]
  simp [hi, show ¬ (8 + i < 4) by omega, show 8 + i < 12 by omega]

@[simp] theorem yField_encodeXYN : yField (encodeXYN op x y n) = y := by
  refine (congrArg BitVec.toFin (BitVec.eq_of_getLsbD_eq (y := nibble y) fun i hi => ?_)).trans rfl
  rw [BitVec.getLsbD_extractLsb', encodeXYN_bit]
  simp [hi, show 4 + i < 8 by omega]

@[simp] theorem nField_encodeXYN : nField (encodeXYN op x y n) = n.toFin := by
  refine congrArg BitVec.toFin (BitVec.eq_of_getLsbD_eq fun i hi => ?_)
  rw [BitVec.getLsbD_extractLsb', encodeXYN_bit]; simp [hi]
end

/-- Joining the two stored bytes of a word gives the word back (R54). -/
@[simp] theorem joinBytes_wordBytes (w : Word) : joinBytes (w.extractLsb' 8 8) (w.extractLsb' 0 8) = w := by
  refine BitVec.eq_of_getLsbD_eq fun i hi => ?_
  simp only [joinBytes, BitVec.getLsbD_append, BitVec.getLsbD_extractLsb']
  by_cases h : i < 8
  · simp [h]
  · simp [h, show i - 8 < 8 by omega, show 8 + (i - 8) = i by omega]

/-- The decoder on the bytes of a word. -/
theorem decode_wordBytes (w : Word) (rest : List Byte) : decode (wordBytes w ++ rest) = .ok (decodeWord w, rest) := by
  simp [wordBytes, decode]

end Sys2Proof
end

