-- ==== Sys2Proof/Laws/Encoded.lean ====
section
/-! SUPPORT. From the mask and match of a row of R83 to the fields on which the decoder dispatches. -/

namespace Sys2Proof

theorem encoded_whole {value : Word} {i : Instr} (h : decodeWord value = i) : Encoded 0xFFFF#16 value (fun _ => i) := by
  intro w hw
  have hmask : w &&& 0xFFFF#16 = w := BitVec.and_allOnes
  rw [← h, ← hw, hmask]

theorem encoded_op {value : Word} {f : Word → Instr} (h : ∀ w, opField w = opField value → decodeWord w = f w) :
    Encoded 0xF000#16 value f :=
  fun w hw => h w (opField_of_mask hw)

theorem encoded_n {value : Word} {f : Word → Instr}
    (h : ∀ w, opField w = opField value → nField w = nField value → decodeWord w = f w) : Encoded 0xF00F#16 value f :=
  fun w hw => h w (opField_of_maskN hw) (nField_of_maskN hw)

theorem encoded_nn {value : Word} {f : Word → Instr}
    (h : ∀ w, opField w = opField value → nnField w = nnField value → decodeWord w = f w) : Encoded 0xF0FF#16 value f :=
  fun w hw => h w (opField_of_maskNN hw) (nnField_of_maskNN hw)

end Sys2Proof
end

