-- ==== Sys2Proof/Laws/State.lean ====
section
/-! SUPPORT. One lemma per field per update, so that no later proof unfolds a record update. -/

namespace Sys2Proof.Machine

variable (s : State)

@[simp] theorem setV_v (v : Vector Byte 16) : (setV v s).v = v := rfl
@[simp] theorem setV_pc (v : Vector Byte 16) : (setV v s).pc = s.pc := rfl
@[simp] theorem setV_index (v : Vector Byte 16) : (setV v s).index = s.index := rfl
@[simp] theorem setV_stack (v : Vector Byte 16) : (setV v s).stack = s.stack := rfl
@[simp] theorem setV_dt (v : Vector Byte 16) : (setV v s).dt = s.dt := rfl
@[simp] theorem setV_st (v : Vector Byte 16) : (setV v s).st = s.st := rfl
@[simp] theorem setV_mem (v : Vector Byte 16) : (setV v s).mem = s.mem := rfl
@[simp] theorem setV_fb (v : Vector Byte 16) : (setV v s).fb = s.fb := rfl
@[simp] theorem setV_presented (v : Vector Byte 16) : (setV v s).presented = s.presented := rfl
@[simp] theorem setV_status (v : Vector Byte 16) : (setV v s).status = s.status := rfl
@[simp] theorem setV_hostAnswers (v : Vector Byte 16) : (setV v s).hostAnswers = s.hostAnswers := rfl

@[simp] theorem setPc_v (a : Word) : (setPc a s).v = s.v := rfl
@[simp] theorem setPc_pc (a : Word) : (setPc a s).pc = a := rfl
@[simp] theorem setPc_index (a : Word) : (setPc a s).index = s.index := rfl
@[simp] theorem setPc_stack (a : Word) : (setPc a s).stack = s.stack := rfl
@[simp] theorem setPc_dt (a : Word) : (setPc a s).dt = s.dt := rfl
@[simp] theorem setPc_st (a : Word) : (setPc a s).st = s.st := rfl
@[simp] theorem setPc_mem (a : Word) : (setPc a s).mem = s.mem := rfl
@[simp] theorem setPc_fb (a : Word) : (setPc a s).fb = s.fb := rfl
@[simp] theorem setPc_presented (a : Word) : (setPc a s).presented = s.presented := rfl
@[simp] theorem setPc_status (a : Word) : (setPc a s).status = s.status := rfl
@[simp] theorem setPc_hostAnswers (a : Word) : (setPc a s).hostAnswers = s.hostAnswers := rfl

@[simp] theorem setIndex_v (a : Word) : (setIndex a s).v = s.v := rfl
@[simp] theorem setIndex_pc (a : Word) : (setIndex a s).pc = s.pc := rfl
@[simp] theorem setIndex_index (a : Word) : (setIndex a s).index = a := rfl
@[simp] theorem setIndex_stack (a : Word) : (setIndex a s).stack = s.stack := rfl
@[simp] theorem setIndex_dt (a : Word) : (setIndex a s).dt = s.dt := rfl
@[simp] theorem setIndex_st (a : Word) : (setIndex a s).st = s.st := rfl
@[simp] theorem setIndex_mem (a : Word) : (setIndex a s).mem = s.mem := rfl
@[simp] theorem setIndex_fb (a : Word) : (setIndex a s).fb = s.fb := rfl
@[simp] theorem setIndex_presented (a : Word) : (setIndex a s).presented = s.presented := rfl
@[simp] theorem setIndex_status (a : Word) : (setIndex a s).status = s.status := rfl
@[simp] theorem setIndex_hostAnswers (a : Word) : (setIndex a s).hostAnswers = s.hostAnswers := rfl

@[simp] theorem setStack_v (l : List Word) : (setStack l s).v = s.v := rfl
@[simp] theorem setStack_pc (l : List Word) : (setStack l s).pc = s.pc := rfl
@[simp] theorem setStack_index (l : List Word) : (setStack l s).index = s.index := rfl
@[simp] theorem setStack_stack (l : List Word) : (setStack l s).stack = l := rfl
@[simp] theorem setStack_dt (l : List Word) : (setStack l s).dt = s.dt := rfl
@[simp] theorem setStack_st (l : List Word) : (setStack l s).st = s.st := rfl
@[simp] theorem setStack_mem (l : List Word) : (setStack l s).mem = s.mem := rfl
@[simp] theorem setStack_fb (l : List Word) : (setStack l s).fb = s.fb := rfl
@[simp] theorem setStack_presented (l : List Word) : (setStack l s).presented = s.presented := rfl
@[simp] theorem setStack_status (l : List Word) : (setStack l s).status = s.status := rfl
@[simp] theorem setStack_hostAnswers (l : List Word) : (setStack l s).hostAnswers = s.hostAnswers := rfl

@[simp] theorem setDt_v (b : Byte) : (setDt b s).v = s.v := rfl
@[simp] theorem setDt_pc (b : Byte) : (setDt b s).pc = s.pc := rfl
@[simp] theorem setDt_index (b : Byte) : (setDt b s).index = s.index := rfl
@[simp] theorem setDt_stack (b : Byte) : (setDt b s).stack = s.stack := rfl
@[simp] theorem setDt_dt (b : Byte) : (setDt b s).dt = b := rfl
@[simp] theorem setDt_st (b : Byte) : (setDt b s).st = s.st := rfl
@[simp] theorem setDt_mem (b : Byte) : (setDt b s).mem = s.mem := rfl
@[simp] theorem setDt_fb (b : Byte) : (setDt b s).fb = s.fb := rfl
@[simp] theorem setDt_presented (b : Byte) : (setDt b s).presented = s.presented := rfl
@[simp] theorem setDt_status (b : Byte) : (setDt b s).status = s.status := rfl
@[simp] theorem setDt_hostAnswers (b : Byte) : (setDt b s).hostAnswers = s.hostAnswers := rfl

@[simp] theorem setSt_v (b : Byte) : (setSt b s).v = s.v := rfl
@[simp] theorem setSt_pc (b : Byte) : (setSt b s).pc = s.pc := rfl
@[simp] theorem setSt_index (b : Byte) : (setSt b s).index = s.index := rfl
@[simp] theorem setSt_stack (b : Byte) : (setSt b s).stack = s.stack := rfl
@[simp] theorem setSt_dt (b : Byte) : (setSt b s).dt = s.dt := rfl
@[simp] theorem setSt_st (b : Byte) : (setSt b s).st = b := rfl
@[simp] theorem setSt_mem (b : Byte) : (setSt b s).mem = s.mem := rfl
@[simp] theorem setSt_fb (b : Byte) : (setSt b s).fb = s.fb := rfl
@[simp] theorem setSt_presented (b : Byte) : (setSt b s).presented = s.presented := rfl
@[simp] theorem setSt_status (b : Byte) : (setSt b s).status = s.status := rfl
@[simp] theorem setSt_hostAnswers (b : Byte) : (setSt b s).hostAnswers = s.hostAnswers := rfl

@[simp] theorem setMem_v (m : Memory) : (setMem m s).v = s.v := rfl
@[simp] theorem setMem_pc (m : Memory) : (setMem m s).pc = s.pc := rfl
@[simp] theorem setMem_index (m : Memory) : (setMem m s).index = s.index := rfl
@[simp] theorem setMem_stack (m : Memory) : (setMem m s).stack = s.stack := rfl
@[simp] theorem setMem_dt (m : Memory) : (setMem m s).dt = s.dt := rfl
@[simp] theorem setMem_st (m : Memory) : (setMem m s).st = s.st := rfl
@[simp] theorem setMem_mem (m : Memory) : (setMem m s).mem = m := rfl
@[simp] theorem setMem_fb (m : Memory) : (setMem m s).fb = s.fb := rfl
@[simp] theorem setMem_presented (m : Memory) : (setMem m s).presented = s.presented := rfl
@[simp] theorem setMem_status (m : Memory) : (setMem m s).status = s.status := rfl
@[simp] theorem setMem_hostAnswers (m : Memory) : (setMem m s).hostAnswers = s.hostAnswers := rfl

@[simp] theorem setFb_v (g : Grid) : (setFb g s).v = s.v := rfl
@[simp] theorem setFb_pc (g : Grid) : (setFb g s).pc = s.pc := rfl
@[simp] theorem setFb_index (g : Grid) : (setFb g s).index = s.index := rfl
@[simp] theorem setFb_stack (g : Grid) : (setFb g s).stack = s.stack := rfl
@[simp] theorem setFb_dt (g : Grid) : (setFb g s).dt = s.dt := rfl
@[simp] theorem setFb_st (g : Grid) : (setFb g s).st = s.st := rfl
@[simp] theorem setFb_mem (g : Grid) : (setFb g s).mem = s.mem := rfl
@[simp] theorem setFb_fb (g : Grid) : (setFb g s).fb = g := rfl
@[simp] theorem setFb_presented (g : Grid) : (setFb g s).presented = s.presented := rfl
@[simp] theorem setFb_status (g : Grid) : (setFb g s).status = s.status := rfl
@[simp] theorem setFb_hostAnswers (g : Grid) : (setFb g s).hostAnswers = s.hostAnswers := rfl

@[simp] theorem setStatus_v (x : Status) : (setStatus x s).v = s.v := rfl
@[simp] theorem setStatus_pc (x : Status) : (setStatus x s).pc = s.pc := rfl
@[simp] theorem setStatus_index (x : Status) : (setStatus x s).index = s.index := rfl
@[simp] theorem setStatus_stack (x : Status) : (setStatus x s).stack = s.stack := rfl
@[simp] theorem setStatus_dt (x : Status) : (setStatus x s).dt = s.dt := rfl
@[simp] theorem setStatus_st (x : Status) : (setStatus x s).st = s.st := rfl
@[simp] theorem setStatus_mem (x : Status) : (setStatus x s).mem = s.mem := rfl
@[simp] theorem setStatus_fb (x : Status) : (setStatus x s).fb = s.fb := rfl
@[simp] theorem setStatus_presented (x : Status) : (setStatus x s).presented = s.presented := rfl
@[simp] theorem setStatus_status (x : Status) : (setStatus x s).status = x := rfl
@[simp] theorem setStatus_hostAnswers (x : Status) : (setStatus x s).hostAnswers = s.hostAnswers := rfl

@[simp] theorem present_v : (present s).v = s.v := rfl
@[simp] theorem present_pc : (present s).pc = s.pc := rfl
@[simp] theorem present_index : (present s).index = s.index := rfl
@[simp] theorem present_stack : (present s).stack = s.stack := rfl
@[simp] theorem present_dt : (present s).dt = s.dt := rfl
@[simp] theorem present_st : (present s).st = s.st := rfl
@[simp] theorem present_mem : (present s).mem = s.mem := rfl
@[simp] theorem present_fb : (present s).fb = s.fb := rfl
@[simp] theorem present_presented : (present s).presented = s.presented ++ [s.fb] := rfl
@[simp] theorem present_status : (present s).status = s.status := rfl
@[simp] theorem present_hostAnswers : (present s).hostAnswers = s.hostAnswers := rfl

@[simp] theorem useAnswer_v : (useAnswer s).v = s.v := rfl
@[simp] theorem useAnswer_pc : (useAnswer s).pc = s.pc := rfl
@[simp] theorem useAnswer_index : (useAnswer s).index = s.index := rfl
@[simp] theorem useAnswer_stack : (useAnswer s).stack = s.stack := rfl
@[simp] theorem useAnswer_dt : (useAnswer s).dt = s.dt := rfl
@[simp] theorem useAnswer_st : (useAnswer s).st = s.st := rfl
@[simp] theorem useAnswer_mem : (useAnswer s).mem = s.mem := rfl
@[simp] theorem useAnswer_fb : (useAnswer s).fb = s.fb := rfl
@[simp] theorem useAnswer_presented : (useAnswer s).presented = s.presented := rfl
@[simp] theorem useAnswer_status : (useAnswer s).status = s.status := rfl
@[simp] theorem useAnswer_hostAnswers : (useAnswer s).hostAnswers = s.hostAnswers + 1 := rfl

@[simp] theorem writeV_v (x : Reg) (b : Byte) : (writeV x b s).v = s.v.set x.val b := rfl
@[simp] theorem writeV_pc (x : Reg) (b : Byte) : (writeV x b s).pc = s.pc := rfl
@[simp] theorem writeV_index (x : Reg) (b : Byte) : (writeV x b s).index = s.index := rfl
@[simp] theorem writeV_stack (x : Reg) (b : Byte) : (writeV x b s).stack = s.stack := rfl
@[simp] theorem writeV_dt (x : Reg) (b : Byte) : (writeV x b s).dt = s.dt := rfl
@[simp] theorem writeV_st (x : Reg) (b : Byte) : (writeV x b s).st = s.st := rfl
@[simp] theorem writeV_mem (x : Reg) (b : Byte) : (writeV x b s).mem = s.mem := rfl
@[simp] theorem writeV_fb (x : Reg) (b : Byte) : (writeV x b s).fb = s.fb := rfl
@[simp] theorem writeV_presented (x : Reg) (b : Byte) : (writeV x b s).presented = s.presented := rfl
@[simp] theorem writeV_status (x : Reg) (b : Byte) : (writeV x b s).status = s.status := rfl
@[simp] theorem writeV_hostAnswers (x : Reg) (b : Byte) : (writeV x b s).hostAnswers = s.hostAnswers := rfl

@[simp] theorem push_v (a : Word) : (push a s).v = s.v := rfl
@[simp] theorem push_pc (a : Word) : (push a s).pc = s.pc := rfl
@[simp] theorem push_index (a : Word) : (push a s).index = s.index := rfl
@[simp] theorem push_stack (a : Word) : (push a s).stack = s.stack ++ [a] := rfl
@[simp] theorem push_dt (a : Word) : (push a s).dt = s.dt := rfl
@[simp] theorem push_st (a : Word) : (push a s).st = s.st := rfl
@[simp] theorem push_mem (a : Word) : (push a s).mem = s.mem := rfl
@[simp] theorem push_fb (a : Word) : (push a s).fb = s.fb := rfl
@[simp] theorem push_presented (a : Word) : (push a s).presented = s.presented := rfl
@[simp] theorem push_status (a : Word) : (push a s).status = s.status := rfl
@[simp] theorem push_hostAnswers (a : Word) : (push a s).hostAnswers = s.hostAnswers := rfl

@[simp] theorem skipIf_v (c : Bool) : (skipIf c s).v = s.v := rfl
@[simp] theorem skipIf_pc (c : Bool) : (skipIf c s).pc = if c then s.pc + 2#16 else s.pc := rfl
@[simp] theorem skipIf_index (c : Bool) : (skipIf c s).index = s.index := rfl
@[simp] theorem skipIf_stack (c : Bool) : (skipIf c s).stack = s.stack := rfl
@[simp] theorem skipIf_dt (c : Bool) : (skipIf c s).dt = s.dt := rfl
@[simp] theorem skipIf_st (c : Bool) : (skipIf c s).st = s.st := rfl
@[simp] theorem skipIf_mem (c : Bool) : (skipIf c s).mem = s.mem := rfl
@[simp] theorem skipIf_fb (c : Bool) : (skipIf c s).fb = s.fb := rfl
@[simp] theorem skipIf_presented (c : Bool) : (skipIf c s).presented = s.presented := rfl
@[simp] theorem skipIf_status (c : Bool) : (skipIf c s).status = s.status := rfl
@[simp] theorem skipIf_hostAnswers (c : Bool) : (skipIf c s).hostAnswers = s.hostAnswers := rfl

@[simp] theorem tickTimers_v : (tickTimers s).v = s.v := rfl
@[simp] theorem tickTimers_pc : (tickTimers s).pc = s.pc := rfl
@[simp] theorem tickTimers_index : (tickTimers s).index = s.index := rfl
@[simp] theorem tickTimers_stack : (tickTimers s).stack = s.stack := rfl
@[simp] theorem tickTimers_dt : (tickTimers s).dt = countDown s.dt := rfl
@[simp] theorem tickTimers_st : (tickTimers s).st = countDown s.st := rfl
@[simp] theorem tickTimers_mem : (tickTimers s).mem = s.mem := rfl
@[simp] theorem tickTimers_fb : (tickTimers s).fb = s.fb := rfl
@[simp] theorem tickTimers_presented : (tickTimers s).presented = s.presented := rfl
@[simp] theorem tickTimers_status : (tickTimers s).status = s.status := rfl
@[simp] theorem tickTimers_hostAnswers : (tickTimers s).hostAnswers = s.hostAnswers := rfl

@[simp] theorem hostTurn_v : (hostTurn s).v = s.v := rfl
@[simp] theorem hostTurn_pc : (hostTurn s).pc = s.pc := rfl
@[simp] theorem hostTurn_index : (hostTurn s).index = s.index := rfl
@[simp] theorem hostTurn_stack : (hostTurn s).stack = s.stack := rfl
@[simp] theorem hostTurn_dt : (hostTurn s).dt = countDownBy (Config.hostTicks s.hostAnswers) s.dt := rfl
@[simp] theorem hostTurn_st : (hostTurn s).st = countDownBy (Config.hostTicks s.hostAnswers) s.st := rfl
@[simp] theorem hostTurn_mem : (hostTurn s).mem = s.mem := rfl
@[simp] theorem hostTurn_fb : (hostTurn s).fb = s.fb := rfl
@[simp] theorem hostTurn_presented : (hostTurn s).presented = s.presented := rfl
@[simp] theorem hostTurn_status : (hostTurn s).status = s.status := rfl
@[simp] theorem hostTurn_hostAnswers : (hostTurn s).hostAnswers = s.hostAnswers + 1 := rfl
@[simp] theorem writeThenFlag_pc (x : Reg) (r : Byte × Byte) : (writeThenFlag x r s).pc = s.pc := rfl
@[simp] theorem writeThenFlag_index (x : Reg) (r : Byte × Byte) : (writeThenFlag x r s).index = s.index := rfl
@[simp] theorem writeThenFlag_stack (x : Reg) (r : Byte × Byte) : (writeThenFlag x r s).stack = s.stack := rfl
@[simp] theorem writeThenFlag_dt (x : Reg) (r : Byte × Byte) : (writeThenFlag x r s).dt = s.dt := rfl
@[simp] theorem writeThenFlag_st (x : Reg) (r : Byte × Byte) : (writeThenFlag x r s).st = s.st := rfl
@[simp] theorem writeThenFlag_mem (x : Reg) (r : Byte × Byte) : (writeThenFlag x r s).mem = s.mem := rfl
@[simp] theorem writeThenFlag_fb (x : Reg) (r : Byte × Byte) : (writeThenFlag x r s).fb = s.fb := rfl
@[simp] theorem writeThenFlag_presented (x : Reg) (r : Byte × Byte) : (writeThenFlag x r s).presented = s.presented := rfl
@[simp] theorem writeThenFlag_status (x : Reg) (r : Byte × Byte) : (writeThenFlag x r s).status = s.status := rfl
@[simp] theorem writeThenFlag_hostAnswers (x : Reg) (r : Byte × Byte) : (writeThenFlag x r s).hostAnswers = s.hostAnswers := rfl

/-- A shift writes registers alone, whatever the parameter is. -/
theorem shiftV_setV (l : Bool) (f g : Byte → Byte) (x : Reg) : ∃ v, shiftV l f g x s = setV v s := by
  unfold shiftV
  split
  · exact ⟨_, rfl⟩
  · exact ⟨_, rfl⟩

@[simp] theorem shiftV_pc (l : Bool) (f g : Byte → Byte) (x : Reg) : (shiftV l f g x s).pc = s.pc := by
  obtain ⟨v, h⟩ := shiftV_setV s l f g x; rw [h]; rfl
@[simp] theorem shiftV_index (l : Bool) (f g : Byte → Byte) (x : Reg) : (shiftV l f g x s).index = s.index := by
  obtain ⟨v, h⟩ := shiftV_setV s l f g x; rw [h]; rfl
@[simp] theorem shiftV_stack (l : Bool) (f g : Byte → Byte) (x : Reg) : (shiftV l f g x s).stack = s.stack := by
  obtain ⟨v, h⟩ := shiftV_setV s l f g x; rw [h]; rfl
@[simp] theorem shiftV_dt (l : Bool) (f g : Byte → Byte) (x : Reg) : (shiftV l f g x s).dt = s.dt := by
  obtain ⟨v, h⟩ := shiftV_setV s l f g x; rw [h]; rfl
@[simp] theorem shiftV_st (l : Bool) (f g : Byte → Byte) (x : Reg) : (shiftV l f g x s).st = s.st := by
  obtain ⟨v, h⟩ := shiftV_setV s l f g x; rw [h]; rfl
@[simp] theorem shiftV_mem (l : Bool) (f g : Byte → Byte) (x : Reg) : (shiftV l f g x s).mem = s.mem := by
  obtain ⟨v, h⟩ := shiftV_setV s l f g x; rw [h]; rfl
@[simp] theorem shiftV_fb (l : Bool) (f g : Byte → Byte) (x : Reg) : (shiftV l f g x s).fb = s.fb := by
  obtain ⟨v, h⟩ := shiftV_setV s l f g x; rw [h]; rfl
@[simp] theorem shiftV_presented (l : Bool) (f g : Byte → Byte) (x : Reg) : (shiftV l f g x s).presented = s.presented := by
  obtain ⟨v, h⟩ := shiftV_setV s l f g x; rw [h]; rfl
@[simp] theorem shiftV_status (l : Bool) (f g : Byte → Byte) (x : Reg) : (shiftV l f g x s).status = s.status := by
  obtain ⟨v, h⟩ := shiftV_setV s l f g x; rw [h]; rfl
@[simp] theorem shiftV_hostAnswers (l : Bool) (f g : Byte → Byte) (x : Reg) : (shiftV l f g x s).hostAnswers = s.hostAnswers := by
  obtain ⟨v, h⟩ := shiftV_setV s l f g x; rw [h]; rfl

@[simp] theorem takeKey_pc (x : Reg) (k : Option Key) : (takeKey x k s).pc = s.pc := by cases k <;> rfl
@[simp] theorem takeKey_index (x : Reg) (k : Option Key) : (takeKey x k s).index = s.index := by cases k <;> rfl
@[simp] theorem takeKey_stack (x : Reg) (k : Option Key) : (takeKey x k s).stack = s.stack := by cases k <;> rfl
@[simp] theorem takeKey_dt (x : Reg) (k : Option Key) : (takeKey x k s).dt = s.dt := by cases k <;> rfl
@[simp] theorem takeKey_st (x : Reg) (k : Option Key) : (takeKey x k s).st = s.st := by cases k <;> rfl
@[simp] theorem takeKey_mem (x : Reg) (k : Option Key) : (takeKey x k s).mem = s.mem := by cases k <;> rfl
@[simp] theorem takeKey_fb (x : Reg) (k : Option Key) : (takeKey x k s).fb = s.fb := by cases k <;> rfl
@[simp] theorem takeKey_presented (x : Reg) (k : Option Key) : (takeKey x k s).presented = s.presented := by cases k <;> rfl
@[simp] theorem takeKey_status (x : Reg) (k : Option Key) : (takeKey x k s).status = s.status := by cases k <;> rfl
@[simp] theorem takeKey_hostAnswers (x : Reg) (k : Option Key) : (takeKey x k s).hostAnswers = s.hostAnswers := by cases k <;> rfl

end Sys2Proof.Machine
end

