-- ==== Sys2Proof/Laws/Memory.lean ====
section
/-! SUPPORT. The laws of memory: a read after a write, the canonical form, and what an access list answers. -/

namespace Sys2Proof.Machine

/-! ## Read after write -/

theorem readByte_cons (k a : Nat) (b : Byte) (m : Memory) :
    readByte ((k, b) :: m) a = if a = k then b else readByte m a := rfl

/-- A canonical memory reads as the reset contents below its first cell. -/
theorem readByte_below {lo : Nat} {m : Memory} (h : Memory.wfFrom lo m = true) {a : Nat} (ha : a < lo) :
    readByte m a = Memory.unlisted a := by
  induction m generalizing lo with
  | nil => rfl
  | cons c m ih =>
    obtain ⟨k, b⟩ := c
    simp only [Memory.wfFrom, Bool.and_eq_true, decide_eq_true_eq] at h
    have hk : a ≠ k := by omega
    rw [readByte_cons, if_neg hk]
    exact ih h.2 (by omega)

theorem readByte_consCell_same (a : Nat) (b : Byte) (m : Memory) (h : readByte m a = Memory.unlisted a) :
    readByte (consCell a b m) a = b := by
  unfold consCell
  split
  · next e => rw [h, e]
  · rw [readByte_cons, if_pos rfl]

theorem readByte_consCell_other {a c : Nat} (b : Byte) (m : Memory) (h : c ≠ a) :
    readByte (consCell a b m) c = readByte m c := by
  unfold consCell
  split
  · rfl
  · rw [readByte_cons, if_neg h]

/-- A read of the written address gives the byte written. -/
theorem readByte_writeByte_same {lo : Nat} {m : Memory} (h : Memory.wfFrom lo m = true) (a : Nat) (b : Byte) :
    readByte (writeByte a b m) a = b := by
  induction m generalizing lo with
  | nil => exact readByte_consCell_same a b [] rfl
  | cons c m ih =>
    obtain ⟨k, c⟩ := c
    have h' := h
    simp only [Memory.wfFrom, Bool.and_eq_true, decide_eq_true_eq] at h
    unfold writeByte
    split
    · next hlt =>
      refine readByte_consCell_same a b _ ?_
      rw [readByte_cons, if_neg (by omega)]
      exact readByte_below h.2 (by omega)
    · split
      · next e => exact readByte_consCell_same a b m (readByte_below h.2 (by omega))
      · next hne => rw [readByte_cons, if_neg hne]; exact ih h.2

/-- A write leaves every other address alone. -/
theorem readByte_writeByte_other {a c : Nat} (b : Byte) (m : Memory) (h : c ≠ a) :
    readByte (writeByte a b m) c = readByte m c := by
  induction m with
  | nil => exact readByte_consCell_other b [] h
  | cons d m ih =>
    obtain ⟨k, d⟩ := d
    unfold writeByte
    split
    · exact readByte_consCell_other b _ h
    · split
      · next e =>
        rw [readByte_consCell_other b m h, readByte_cons, if_neg (by omega)]
      · rw [readByte_cons, readByte_cons, ih]

/-! ## The canonical form is kept -/

theorem Memory.wfFrom_mono {lo lo' : Nat} {m : Memory} (h : Memory.wfFrom lo m = true) (hl : lo' ≤ lo) :
    Memory.wfFrom lo' m = true := by
  cases m with
  | nil => rfl
  | cons c m =>
    obtain ⟨k, b⟩ := c
    simp only [Memory.wfFrom, Bool.and_eq_true, decide_eq_true_eq] at h ⊢
    exact ⟨⟨⟨by omega, h.1.1.2⟩, h.1.2⟩, h.2⟩

theorem consCell_wfFrom {lo a : Nat} {m : Memory} (b : Byte) (hlo : lo ≤ a) (ha : a < Config.memSize)
    (h : Memory.wfFrom (a + 1) m = true) : Memory.wfFrom lo (consCell a b m) = true := by
  unfold consCell
  split
  · exact Memory.wfFrom_mono h (by omega)
  · next e =>
    simp only [Memory.wfFrom, Bool.and_eq_true, decide_eq_true_eq, bne_iff_ne, ne_eq]
    exact ⟨⟨⟨hlo, ha⟩, e⟩, h⟩

theorem writeByte_wfFrom {lo a : Nat} {m : Memory} (b : Byte) (hlo : lo ≤ a) (ha : a < Config.memSize)
    (h : Memory.wfFrom lo m = true) : Memory.wfFrom lo (writeByte a b m) = true := by
  induction m generalizing lo with
  | nil => exact consCell_wfFrom b hlo ha rfl
  | cons c m ih =>
    obtain ⟨k, c⟩ := c
    have h' := h
    simp only [Memory.wfFrom, Bool.and_eq_true, decide_eq_true_eq, bne_iff_ne, ne_eq] at h
    unfold writeByte
    split
    · next hlt =>
      refine consCell_wfFrom b hlo ha ?_
      simp only [Memory.wfFrom, Bool.and_eq_true, decide_eq_true_eq, bne_iff_ne, ne_eq]
      exact ⟨⟨⟨by omega, h.1.1.2⟩, h.1.2⟩, h.2⟩
    · split
      · next e => subst e; exact consCell_wfFrom b hlo ha h.2
      · simp only [Memory.wfFrom, Bool.and_eq_true, decide_eq_true_eq, bne_iff_ne, ne_eq]
        exact ⟨⟨⟨h.1.1.1, h.1.1.2⟩, h.1.2⟩, ih (by omega) h.2⟩

/-- Writing bytes inside the address space keeps the canonical form. -/
theorem writeBytes_wf (bs : List Byte) {a : Nat} {m : Memory} (h : Memory.wf m = true)
    (ha : a + bs.length ≤ Config.memSize) : Memory.wf (writeBytes a bs m) = true := by
  induction bs generalizing a m with
  | nil => exact h
  | cons b bs ih =>
    simp only [List.length_cons] at ha
    exact ih (writeByte_wfFrom b (Nat.zero_le _) (by omega) h) (by omega)

theorem reset_mem_wf : Memory.wf State.reset.mem = true := rfl

/-! ## Several bytes -/

/-- An address outside the written bytes reads as before. -/
theorem readByte_writeBytes_other (bs : List Byte) {a c : Nat} (m : Memory) (h : c < a ∨ a + bs.length ≤ c) :
    readByte (writeBytes a bs m) c = readByte m c := by
  induction bs generalizing a m with
  | nil => rfl
  | cons b bs ih =>
    simp only [List.length_cons] at h
    rw [writeBytes, ih _ (by omega), readByte_writeByte_other b m (by omega)]

/-- Byte `k` of the written bytes reads at address `a + k`. -/
theorem readByte_writeBytes_same (bs : List Byte) {a k : Nat} {m : Memory} (h : Memory.wf m = true)
    (ha : a + bs.length ≤ Config.memSize) (hk : k < bs.length) : readByte (writeBytes a bs m) (a + k) = bs[k] := by
  induction bs generalizing a k m with
  | nil => exact absurd hk (Nat.not_lt_zero _)
  | cons b bs ih =>
    simp only [List.length_cons] at ha hk
    have hw := writeByte_wfFrom b (Nat.zero_le a) (by omega) h
    cases k with
    | zero =>
      rw [writeBytes, Nat.add_zero, readByte_writeBytes_other bs _ (by omega)]
      exact readByte_writeByte_same h a b
    | succ k =>
      have := ih (a := a + 1) (k := k) hw (by omega) (by omega)
      rw [writeBytes, show a + (k + 1) = a + 1 + k by omega, this]
      rfl

/-! ## Access lists -/

theorem mem_accessList {base n a : Nat} : a ∈ accessList base n ↔ base ≤ a ∧ a < base + n := by
  simp only [accessList, List.mem_map, List.mem_range]
  constructor
  · rintro ⟨k, hk, rfl⟩; omega
  · intro h; exact ⟨a - base, by omega, by omega⟩

@[simp] theorem accessList_length (base n : Nat) : (accessList base n).length = n := by simp [accessList]

theorem accessList_getElem (base n k : Nat) (h : k < (accessList base n).length) : (accessList base n)[k] = base + k := by
  simp [accessList]

/-- Every address of the list exists exactly when the list is empty or ends inside the address space. -/
theorem firstOutOfRange_none {base n : Nat} : firstOutOfRange base n = none ↔ n = 0 ∨ base + n ≤ Config.memSize := by
  simp only [firstOutOfRange, List.find?_eq_none, decide_eq_true_eq]
  constructor
  · intro h
    by_cases hn : n = 0
    · exact .inl hn
    · have := h (base + (n - 1)) (mem_accessList.2 (by omega)); omega
  · intro h a ha
    have := mem_accessList.1 ha; omega

/-- The first bad address is the base itself, or the end of the address space where the list crosses it. -/
theorem firstOutOfRange_some {base n a : Nat} :
    firstOutOfRange base n = some a ↔ (n ≠ 0 ∧ Config.memSize < base + n) ∧ a = max base Config.memSize := by
  have unique : ∀ a', firstOutOfRange base n = some a' → a' = max base Config.memSize := by
    intro a' h'
    obtain ⟨hp, as, bs, hl, hall⟩ := List.find?_eq_some_iff_append.1 h'
    simp only [decide_eq_true_eq] at hp
    have hmem : a' ∈ accessList base n := by rw [hl]; simp
    have hr := mem_accessList.1 hmem
    by_contra hne
    have hx : max base Config.memSize ∈ accessList base n := mem_accessList.2 (by omega)
    have hlen : as.length < (accessList base n).length := by rw [hl]; simp
    have hat : (accessList base n)[as.length] = a' := by simp [hl]
    rw [accessList_getElem] at hat
    have hpos : max base Config.memSize - base < as.length := by omega
    have hin : (accessList base n)[max base Config.memSize - base]'(by omega) = max base Config.memSize := by
      rw [accessList_getElem]; omega
    have hat' : as[max base Config.memSize - base]'hpos = max base Config.memSize :=
      Eq.trans (by simp [hl, List.getElem_append_left hpos]) hin
    have := hall _ (List.getElem_mem hpos)
    simp only [Bool.not_eq_true', decide_eq_false_iff_not] at this
    omega
  constructor
  · intro h
    refine ⟨?_, unique a h⟩
    by_contra hn
    rw [firstOutOfRange_none.2 (by omega)] at h
    exact absurd h (by simp)
  · rintro ⟨hn, rfl⟩
    cases h : firstOutOfRange base n with
    | none => have := firstOutOfRange_none.1 h; omega
    | some a' => rw [unique a' h]

/-- A load answers the bytes of the list, where every address exists. -/
theorem loadBytes_ok {kind : AccessKind} {base n : Nat} {s : State} (h : n = 0 ∨ base + n ≤ Config.memSize) :
    loadBytes kind base n s = .ok ((accessList base n).map (readByte s.mem)) := by
  simp [loadBytes, firstOutOfRange_none.2 h]

theorem loadBytes_error {kind : AccessKind} {base n : Nat} {s : State} (h : n ≠ 0 ∧ Config.memSize < base + n) :
    loadBytes kind base n s = .error (.memFault (max base Config.memSize) kind s.pc) := by
  simp [loadBytes, firstOutOfRange_some.2 ⟨h, rfl⟩]

/-- A store writes the bytes, where every address exists. -/
theorem storeBytes_ok {base : Nat} {bs : List Byte} {s : State} (h : base + bs.length ≤ Config.memSize) :
    storeBytes base bs s = .ok (setMem (writeBytes base bs s.mem) s) := by
  simp [storeBytes, firstOutOfRange_none.2 (Or.inr h)]

theorem storeBytes_error {base : Nat} {bs : List Byte} {s : State}
    (h : bs.length ≠ 0 ∧ Config.memSize < base + bs.length) :
    storeBytes base bs s = .error (.memFault (max base Config.memSize) .write s.pc) := by
  simp [storeBytes, firstOutOfRange_some.2 ⟨h, rfl⟩]

theorem fetch_ok {s : State} (h : s.pc.toNat + 1 < Config.memSize) : fetch s = .ok (wordAt s.mem s.pc.toNat) := by
  simp [fetch, firstOutOfRange_none.2 (Or.inr (show s.pc.toNat + 2 ≤ Config.memSize by omega))]

theorem fetch_error {s : State} (h : Config.memSize ≤ s.pc.toNat + 1) :
    fetch s = .error (.memFault (max s.pc.toNat Config.memSize) .fetch s.pc) := by
  have := firstOutOfRange_some (base := s.pc.toNat) (n := 2).2 ⟨⟨by omega, by omega⟩, rfl⟩
  simp [fetch, this]

end Sys2Proof.Machine
end

