-- ==== Sys2Proof/Laws/Ops.lean ====
section
/-! SUPPORT. What each shared operation beside memory does, said once: registers, flags, the end of an instruction, faults,
the Display sink, ticks. -/

namespace Sys2Proof.Machine

/-! ## Registers -/

/-- A register read after a register write. -/
@[simp] theorem readV_writeV (x r : Reg) (b : Byte) (s : State) :
    readV r (writeV x b s) = if r = x then b else readV r s := by
  simp only [readV, writeV, setV, Vector.getElem_set, Fin.ext_iff, eq_comm (a := x.val)]

@[simp] theorem readV_setPc (a : Word) (r : Reg) (s : State) : readV r (setPc a s) = readV r s := rfl
@[simp] theorem readV_setIndex (a : Word) (r : Reg) (s : State) : readV r (setIndex a s) = readV r s := rfl
@[simp] theorem readV_setStack (l : List Word) (r : Reg) (s : State) : readV r (setStack l s) = readV r s := rfl
@[simp] theorem readV_setDt (b : Byte) (r : Reg) (s : State) : readV r (setDt b s) = readV r s := rfl
@[simp] theorem readV_setSt (b : Byte) (r : Reg) (s : State) : readV r (setSt b s) = readV r s := rfl
@[simp] theorem readV_setMem (m : Memory) (r : Reg) (s : State) : readV r (setMem m s) = readV r s := rfl
@[simp] theorem readV_setFb (g : Grid) (r : Reg) (s : State) : readV r (setFb g s) = readV r s := rfl
@[simp] theorem readV_setStatus (x : Status) (r : Reg) (s : State) : readV r (setStatus x s) = readV r s := rfl
@[simp] theorem readV_present (r : Reg) (s : State) : readV r (present s) = readV r s := rfl
@[simp] theorem readV_useAnswer (r : Reg) (s : State) : readV r (useAnswer s) = readV r s := rfl
@[simp] theorem readV_push (a : Word) (r : Reg) (s : State) : readV r (push a s) = readV r s := rfl
@[simp] theorem readV_skipIf (c : Bool) (r : Reg) (s : State) : readV r (skipIf c s) = readV r s := rfl
@[simp] theorem readV_tickTimers (r : Reg) (s : State) : readV r (tickTimers s) = readV r s := rfl
@[simp] theorem readV_hostTurn (r : Reg) (s : State) : readV r (hostTurn s) = readV r s := rfl

/-- Two register files that read alike are one. -/
theorem v_ext {v w : Vector Byte 16} (h : ∀ k (hk : k < 16), v[k] = w[k]) : v = w := Vector.ext h

/-- The registers after a filling: the bytes at their places, the others unchanged. -/
theorem getElem_fillRegs (bs : List Byte) (k : Nat) (v : Vector Byte 16) (i : Nat) (hi : i < 16) :
    (fillRegs k bs v)[i] = if h : k ≤ i ∧ i - k < bs.length then bs[i - k] else v[i] := by
  induction bs generalizing k v with
  | nil => simp [fillRegs]
  | cons b bs ih =>
    rw [fillRegs, ih]
    by_cases h1 : k = i
    · subst h1
      simp [show ¬ (k + 1 ≤ k) by omega]
    · rw [Vector.getElem_setIfInBounds, if_neg h1]
      by_cases h2 : k + 1 ≤ i ∧ i - (k + 1) < bs.length
      · rw [dif_pos h2, dif_pos (by simp only [List.length_cons]; omega)]
        simp only [show i - k = (i - (k + 1)) + 1 by omega, List.getElem_cons_succ]
      · rw [dif_neg h2, dif_neg (by simp only [List.length_cons]; omega)]

@[simp] theorem firstRegs_length (x : Reg) (s : State) : (firstRegs x s).length = x.val + 1 := by
  simp [firstRegs]

theorem firstRegs_getElem (x : Reg) (s : State) (k : Nat) (h : k < (firstRegs x s).length) :
    (firstRegs x s)[k] = readV ⟨k, by simp at h; omega⟩ s := by
  simp [firstRegs, readV]

@[simp] theorem decimalDigits_length (b : Byte) : (decimalDigits b).length = 3 := rfl

/-- A register value names a key exactly when it is at most `0xF`. -/
theorem keyOf_some {b : Byte} {k : Key} : keyOf b = some k ↔ b.toNat = k.val := by
  unfold keyOf
  split
  · simp [Fin.ext_iff]
  · simp; omega

theorem keyOf_none {b : Byte} : keyOf b = none ↔ 0xF < b.toNat := by
  unfold keyOf
  split
  · simp; omega
  · simp; omega

/-! ## Flags -/

/-- Result and flag: with `x = 0xF` the flag stays (R140). -/
@[simp] theorem readV_writeThenFlag (x r : Reg) (p : Byte × Byte) (s : State) :
    readV r (writeThenFlag x p s) = if r = VF then p.2 else if r = x then p.1 else readV r s := by
  simp [writeThenFlag]

/-- A shift by one, for every register and both values of the parameter (R154). -/
theorem readV_shiftV (flagLast : Bool) (flag shift : Byte → Byte) (x r : Reg) (s : State) :
    readV r (shiftV flagLast flag shift x s) =
      if r = x then
        if x = VF then if flagLast then flag (readV x s) else shift (flag (readV x s)) else shift (readV x s)
      else if r = VF then flag (readV x s) else readV r s := by
  by_cases hx : x = VF
  · subst hx
    cases flagLast <;> by_cases hr : r = VF <;> simp [shiftV, flagThenShift, hr]
  · by_cases hr : r = x <;> simp [shiftV, flagThenShift, hx, hr]

/-- The registers after a key answer (R173). -/
@[simp] theorem readV_takeKey (x r : Reg) (k : Option Key) (s : State) :
    readV r (takeKey x k s) = if r = x then k.elim (readV r s) keyByte else readV r s := by
  cases k <;> simp [takeKey]

/-! ## The end of an instruction and faults -/

/-- The epilogue answers a next state, with `pc` moved past the word unless the instruction set it. -/
theorem finish_eq (jumped : Bool) (s : State) :
    finish jumped s = .next (if jumped then s else setPc (s.pc + 2#16) s) := rfl

/-- Raising a fault answers the state with the fault recorded and nothing else changed. -/
theorem raiseFault_eq (f : Fault) (s : State) : raiseFault f s = .next (setStatus (.faulted f) s) := rfl

@[simp] theorem orRaise_ok {α : Type} (a : α) (s : State) (k : α → Host.Outcome State Fault Refusal) :
    orRaise (.ok a) s k = k a := rfl

@[simp] theorem orRaise_error {α : Type} (f : Fault) (s : State) (k : α → Host.Outcome State Fault Refusal) :
    orRaise (.error f) s k = raiseFault f s := rfl

/-- Popping: nothing of an empty stack, else the last entry. -/
theorem pop_empty {s : State} (h : s.stack = []) : pop s = none := by simp [pop, h]

theorem pop_append {s : State} {l : List Word} {a : Word} (h : s.stack = l ++ [a]) : pop s = some (a, setStack l s) := by
  simp [pop, h]

/-! ## The Display sink -/

/-- A pixel read after a pixel write. -/
@[simp] theorem pixelAt_setPixel (p q : Pixel) (b : Bool) (g : Grid) :
    pixelAt (setPixel p b g) q = if q = p then b else pixelAt g q := by
  obtain ⟨⟨px, hpx⟩, ⟨py, hpy⟩⟩ := p
  obtain ⟨⟨qx, hqx⟩, ⟨qy, hqy⟩⟩ := q
  simp only [pixelAt, setPixel, Vector.getElem_set, Prod.mk.injEq, Fin.mk.injEq]
  by_cases hx : px = qx
  · subst hx
    by_cases hy : py = qy
    · subst hy; simp
    · simp [hy, Ne.symm hy]
  · simp [hx, Ne.symm hx]

@[simp] theorem pixelAt_clearGrid (p : Pixel) : pixelAt clearGrid p = false := by simp [pixelAt, clearGrid]

/-- The toggles of pixels that are all different: each is inverted, and the collision says whether one was lit (R106). -/
theorem toggleAll_spec {ps : List Pixel} (h : ps.Nodup) (g : Grid) :
    (∀ q, pixelAt (toggleAll ps g).1 q = (pixelAt g q ^^ decide (q ∈ ps))) ∧
      ((toggleAll ps g).2 = true ↔ ∃ q ∈ ps, pixelAt g q = true) := by
  induction ps generalizing g with
  | nil => simp [toggleAll]
  | cons p ps ih =>
    obtain ⟨hp, hps⟩ := List.nodup_cons.1 h
    obtain ⟨ih1, ih2⟩ := ih hps (togglePixel p g).1
    have first : ∀ q, pixelAt (togglePixel p g).1 q = if q = p then !pixelAt g p else pixelAt g q :=
      fun q => pixelAt_setPixel p q _ g
    have other : ∀ q ∈ ps, q ≠ p := fun q hq e => hp (e ▸ hq)
    constructor
    · intro q
      rw [toggleAll, ih1, first]
      by_cases hq : q = p
      · subst hq; simp [hp]
      · simp [hq]
    · rw [toggleAll, Bool.or_eq_true, ih2]
      constructor
      · rintro (hl | ⟨q, hq, hl⟩)
        · exact ⟨p, by simp, hl⟩
        · exact ⟨q, by simp [hq], by rwa [first, if_neg (other q hq)] at hl⟩
      · rintro ⟨q, hq, hl⟩
        rcases List.mem_cons.1 hq with rfl | hq
        · exact .inl hl
        · exact .inr ⟨q, hq, by rwa [first, if_neg (other q hq)]⟩

theorem onScreen_some {tx ty : Nat} {p : Pixel} : onScreen tx ty = some p ↔ p.1.val = tx ∧ p.2.val = ty := by
  obtain ⟨⟨a, ha⟩, ⟨b, hb⟩⟩ := p
  unfold onScreen
  split
  · simp [eq_comm]
  · simp; omega

/-- A pixel is a target of a row exactly when the row's bit at its column is set (R105). -/
theorem mem_rowTargets {px ty : Nat} {row : Byte} {p : Pixel} :
    p ∈ rowTargets px ty row ↔
      p.2.val = ty ∧ px ≤ p.1.val ∧ p.1.val < px + 8 ∧ row.getLsbD (7 - (p.1.val - px)) = true := by
  simp only [rowTargets, List.mem_filterMap, List.mem_range]
  constructor
  · rintro ⟨c, hc, h⟩
    split at h
    · next hb =>
      obtain ⟨h1, h2⟩ := onScreen_some.1 h
      refine ⟨h2, by omega, by omega, ?_⟩
      rw [h1, show px + c - px = c by omega]; exact hb
    · exact absurd h (by simp)
  · rintro ⟨h1, h2, h3, h4⟩
    refine ⟨p.1.val - px, by omega, ?_⟩
    rw [if_pos h4]
    exact onScreen_some.2 ⟨by omega, h1⟩

theorem rowTargets_nodup (px ty : Nat) (row : Byte) : (rowTargets px ty row).Nodup := by
  unfold rowTargets
  refine List.Nodup.filterMap ?_ List.nodup_range
  intro a b p ha hb
  split at ha <;> split at hb <;> simp_all only [Option.mem_def, onScreen_some, reduceCtorEq]
  omega

/-- A pixel is a target of a sprite exactly when its row is one of the sprite's and has the bit set (R105). -/
theorem mem_spriteTargets {px py : Nat} {rows : List Byte} {p : Pixel} :
    p ∈ spriteTargets px py rows ↔
      py ≤ p.2.val ∧ px ≤ p.1.val ∧ p.1.val < px + 8 ∧
        ∃ h : p.2.val - py < rows.length, rows[p.2.val - py].getLsbD (7 - (p.1.val - px)) = true := by
  induction rows generalizing py with
  | nil => simp [spriteTargets]
  | cons row rows ih =>
    rw [spriteTargets, List.mem_append, mem_rowTargets, ih]
    constructor
    · rintro (⟨rfl, h1, h2, h3⟩ | ⟨h1, h2, h3, h4, h5⟩)
      · exact ⟨Nat.le_refl _, h1, h2, by simp, by simpa using h3⟩
      · refine ⟨by omega, h2, h3, by simp only [List.length_cons]; omega, ?_⟩
        simpa only [show p.2.val - py = (p.2.val - (py + 1)) + 1 by omega, List.getElem_cons_succ] using h5
    · rintro ⟨h1, h2, h3, h4, h5⟩
      by_cases e : p.2.val = py
      · refine .inl ⟨e, h2, h3, ?_⟩
        simpa only [e, Nat.sub_self, List.getElem_cons_zero] using h5
      · refine .inr ⟨by omega, h2, h3, by simp only [List.length_cons] at h4; omega, ?_⟩
        simpa only [show p.2.val - py = (p.2.val - (py + 1)) + 1 by omega, List.getElem_cons_succ] using h5

/-- No pixel is visited twice (R105). -/
theorem spriteTargets_nodup (px py : Nat) (rows : List Byte) : (spriteTargets px py rows).Nodup := by
  induction rows generalizing py with
  | nil => exact List.nodup_nil
  | cons row rows ih =>
    refine List.Nodup.append (rowTargets_nodup px py row) (ih _) ?_
    intro p h1 h2
    have := (mem_rowTargets.1 h1).1
    have := (mem_spriteTargets.1 h2).1
    omega

/-- What a drawing does to each pixel. -/
theorem drawSprite_pixel (px py : Nat) (rows : List Byte) (s : State) (p : Pixel) :
    pixelAt (drawSprite px py rows s).fb p = (pixelAt s.fb p ^^ decide (p ∈ spriteTargets px py rows)) := by
  simp [drawSprite, (toggleAll_spec (spriteTargets_nodup px py rows) s.fb).1]

/-- The targets of the rows read from memory are the set bits of the claims' `spriteBit`. -/
theorem decide_mem_spriteTargets (s : State) (px py n : Nat) (p : Pixel) :
    decide (p ∈ spriteTargets px py ((accessList s.index.toNat n).map (readByte s.mem))) = spriteBit s px py n p := by
  rw [Bool.eq_iff_iff, decide_eq_true_eq, mem_spriteTargets]
  simp only [spriteBit, Bool.and_eq_true, decide_eq_true_eq]
  constructor
  · rintro ⟨h1, h2, h3, h4, h5⟩
    simp only [List.length_map, accessList_length] at h4
    simp only [List.getElem_map, accessList_getElem] at h5
    exact ⟨⟨⟨⟨h1, by omega⟩, h2⟩, h3⟩, h5⟩
  · rintro ⟨⟨⟨⟨h1, h4⟩, h2⟩, h3⟩, h5⟩
    refine ⟨h1, h2, h3, by simp only [List.length_map, accessList_length]; omega, ?_⟩
    simpa only [List.getElem_map, accessList_getElem] using h5

/-- A flag is 0 or 1, and 1 exactly when its condition holds. -/
theorem flagByte_spec (b : Bool) : (flagByte b = 0#8 ∨ flagByte b = 1#8) ∧ (flagByte b = 1#8 ↔ b = true) := by
  cases b <;> simp [flagByte]

/-! ## Key skips -/

/-- A key skip with a key in range asks the host once and skips or not. -/
theorem keySkip_key {skips : Bool → Bool} {x : Reg} {s : State} {k : Key} (h : (readV x s).toNat = k.val) :
    keySkip skips x s = finish false (skipIf (skips (Config.isHeld s.hostAnswers k)) (useAnswer s)) := by
  simp [keySkip, keyOf_some.2 h]

/-- A key skip with a value above `0xF` faults before it asks. -/
theorem keySkip_outOfRange {skips : Bool → Bool} {x : Reg} {s : State} (h : 0xF < (readV x s).toNat) :
    keySkip skips x s = raiseFault (.keyOutOfRange (readV x s) s.pc) s := by
  simp [keySkip, keyOf_none.2 h]

/-! ## Ticks -/

theorem countDown_toNat (t : Byte) : (countDown t).toNat = t.toNat - 1 := by
  unfold countDown
  split
  · next h => subst h; rfl
  · next h =>
    have : t.toNat ≠ 0 := fun e => h (BitVec.eq_of_toNat_eq (by simpa using e))
    rw [BitVec.toNat_sub]; simp; omega

theorem countDownBy_toNat (n : Nat) (t : Byte) : (countDownBy n t).toNat = t.toNat - n := by
  unfold countDownBy
  split
  · next h => subst h; simp
  · have := t.isLt
    simp; omega

/-- No tick changes nothing, and one more tick is one more call of `tick_timers()` (R211). -/
theorem runTicks_zero (s : State) : runTicks 0 s = s := by
  have h : ∀ t, countDownBy 0 t = t := fun t => BitVec.eq_of_toNat_eq (by rw [countDownBy_toNat]; omega)
  simp [runTicks, h, setSt, setDt]

theorem runTicks_succ (n : Nat) (s : State) : runTicks (n + 1) s = runTicks n (tickTimers s) := by
  have h : ∀ t, countDownBy (n + 1) t = countDownBy n (countDown t) := fun t =>
    BitVec.eq_of_toNat_eq (by rw [countDownBy_toNat, countDownBy_toNat, countDown_toNat]; omega)
  simp [runTicks, h, setSt, setDt, tickTimers]

end Sys2Proof.Machine
end

