-- ==== Sys2Proof/Laws/PerInstr.lean ====
section
/-! SUPPORT. Per instruction: the word of the instruction has the fixed bits of its row (R83). -/

namespace Sys2Proof.Laws.RowBits

/-- A well-formed instruction's word matches its row of R83. -/
def Statement (i : Instr) : Prop := i.wellFormed = true → encode i &&& i.row.1 = i.row.2

theorem encodeA_op (op : BitVec 4) (nnn : Addr) : encodeA op nnn &&& 0xF000#16 = encodeA op 0#12 := by
  refine BitVec.eq_of_getLsbD_eq fun i hi => ?_
  rw [BitVec.getLsbD_and, encodeA_bit, encodeA_bit]
  interval_cases i <;> simp

theorem encodeXNN_op (op : BitVec 4) (x : Reg) (nn : Byte) : encodeXNN op x nn &&& 0xF000#16 = encodeA op 0#12 := by
  refine BitVec.eq_of_getLsbD_eq fun i hi => ?_
  rw [BitVec.getLsbD_and, encodeXNN_bit, encodeA_bit]
  interval_cases i <;> simp

theorem encodeXYN_op (op n : BitVec 4) (x y : Reg) : encodeXYN op x y n &&& 0xF000#16 = encodeA op 0#12 := by
  refine BitVec.eq_of_getLsbD_eq fun i hi => ?_
  rw [BitVec.getLsbD_and, encodeXYN_bit, encodeA_bit]
  interval_cases i <;> simp

theorem encodeXYN_n (op n : BitVec 4) (x y : Reg) : encodeXYN op x y n &&& 0xF00F#16 = encodeXYN op 0 0 n := by
  refine BitVec.eq_of_getLsbD_eq fun i hi => ?_
  rw [BitVec.getLsbD_and, encodeXYN_bit, encodeXYN_bit]
  interval_cases i <;> simp [nibble]

theorem encodeXNN_nn (op : BitVec 4) (x : Reg) (nn : Byte) : encodeXNN op x nn &&& 0xF0FF#16 = encodeXNN op 0 nn := by
  refine BitVec.eq_of_getLsbD_eq fun i hi => ?_
  rw [BitVec.getLsbD_and, encodeXNN_bit, encodeXNN_bit]
  interval_cases i <;> simp [nibble]

theorem cls : Statement .cls := fun _ => by decide
theorem ret : Statement .ret := fun _ => by decide
theorem jp (nnn : Addr) : Statement (.jp nnn) := fun _ => (encodeA_op _ _).trans (show encodeA 0x1#4 0#12 = 0x1000#16 by decide)
theorem call (nnn : Addr) : Statement (.call nnn) := fun _ => (encodeA_op _ _).trans (show encodeA 0x2#4 0#12 = 0x2000#16 by decide)
theorem seI (x : Reg) (nn : Byte) : Statement (.seI x nn) := fun _ => (encodeXNN_op _ _ _).trans (show encodeA 0x3#4 0#12 = 0x3000#16 by decide)
theorem sneI (x : Reg) (nn : Byte) : Statement (.sneI x nn) := fun _ => (encodeXNN_op _ _ _).trans (show encodeA 0x4#4 0#12 = 0x4000#16 by decide)
theorem seR (x : Reg) (y : Reg) : Statement (.seR x y) := fun _ => (encodeXYN_op _ _ _ _).trans (show encodeA 0x5#4 0#12 = 0x5000#16 by decide)
theorem ldI (x : Reg) (nn : Byte) : Statement (.ldI x nn) := fun _ => (encodeXNN_op _ _ _).trans (show encodeA 0x6#4 0#12 = 0x6000#16 by decide)
theorem addI (x : Reg) (nn : Byte) : Statement (.addI x nn) := fun _ => (encodeXNN_op _ _ _).trans (show encodeA 0x7#4 0#12 = 0x7000#16 by decide)
theorem ldR (x : Reg) (y : Reg) : Statement (.ldR x y) := fun _ => (encodeXYN_n _ _ _ _).trans (show encodeXYN 0x8#4 0 0 0x0#4 = 0x8000#16 by decide)
theorem or (x : Reg) (y : Reg) : Statement (.or x y) := fun _ => (encodeXYN_n _ _ _ _).trans (show encodeXYN 0x8#4 0 0 0x1#4 = 0x8001#16 by decide)
theorem and (x : Reg) (y : Reg) : Statement (.and x y) := fun _ => (encodeXYN_n _ _ _ _).trans (show encodeXYN 0x8#4 0 0 0x2#4 = 0x8002#16 by decide)
theorem xor (x : Reg) (y : Reg) : Statement (.xor x y) := fun _ => (encodeXYN_n _ _ _ _).trans (show encodeXYN 0x8#4 0 0 0x3#4 = 0x8003#16 by decide)
theorem addR (x : Reg) (y : Reg) : Statement (.addR x y) := fun _ => (encodeXYN_n _ _ _ _).trans (show encodeXYN 0x8#4 0 0 0x4#4 = 0x8004#16 by decide)
theorem sub (x : Reg) (y : Reg) : Statement (.sub x y) := fun _ => (encodeXYN_n _ _ _ _).trans (show encodeXYN 0x8#4 0 0 0x5#4 = 0x8005#16 by decide)
theorem shr (x : Reg) (y : Reg) : Statement (.shr x y) := fun _ => (encodeXYN_n _ _ _ _).trans (show encodeXYN 0x8#4 0 0 0x6#4 = 0x8006#16 by decide)
theorem subn (x : Reg) (y : Reg) : Statement (.subn x y) := fun _ => (encodeXYN_n _ _ _ _).trans (show encodeXYN 0x8#4 0 0 0x7#4 = 0x8007#16 by decide)
theorem shl (x : Reg) (y : Reg) : Statement (.shl x y) := fun _ => (encodeXYN_n _ _ _ _).trans (show encodeXYN 0x8#4 0 0 0xE#4 = 0x800E#16 by decide)
theorem sneR (x : Reg) (y : Reg) : Statement (.sneR x y) := fun _ => (encodeXYN_op _ _ _ _).trans (show encodeA 0x9#4 0#12 = 0x9000#16 by decide)
theorem ldIdx (nnn : Addr) : Statement (.ldIdx nnn) := fun _ => (encodeA_op _ _).trans (show encodeA 0xA#4 0#12 = 0xA000#16 by decide)
theorem jpOfs (x : Reg) (nn : Byte) : Statement (.jpOfs x nn) := fun _ => (encodeXNN_op _ _ _).trans (show encodeA 0xB#4 0#12 = 0xB000#16 by decide)
theorem rnd (x : Reg) (nn : Byte) : Statement (.rnd x nn) := fun _ => (encodeXNN_op _ _ _).trans (show encodeA 0xC#4 0#12 = 0xC000#16 by decide)
theorem drw (x : Reg) (y : Reg) (n : Count) : Statement (.drw x y n) := fun _ => (encodeXYN_op _ _ _ _).trans (show encodeA 0xD#4 0#12 = 0xD000#16 by decide)
theorem skp (x : Reg) : Statement (.skp x) := fun _ => (encodeXNN_nn _ _ _).trans (show encodeXNN 0xE#4 0 0x9E#8 = 0xE09E#16 by decide)
theorem sknp (x : Reg) : Statement (.sknp x) := fun _ => (encodeXNN_nn _ _ _).trans (show encodeXNN 0xE#4 0 0xA1#8 = 0xE0A1#16 by decide)
theorem ldVDt (x : Reg) : Statement (.ldVDt x) := fun _ => (encodeXNN_nn _ _ _).trans (show encodeXNN 0xF#4 0 0x07#8 = 0xF007#16 by decide)
theorem ldVK (x : Reg) : Statement (.ldVK x) := fun _ => (encodeXNN_nn _ _ _).trans (show encodeXNN 0xF#4 0 0x0A#8 = 0xF00A#16 by decide)
theorem ldDtV (x : Reg) : Statement (.ldDtV x) := fun _ => (encodeXNN_nn _ _ _).trans (show encodeXNN 0xF#4 0 0x15#8 = 0xF015#16 by decide)
theorem ldStV (x : Reg) : Statement (.ldStV x) := fun _ => (encodeXNN_nn _ _ _).trans (show encodeXNN 0xF#4 0 0x18#8 = 0xF018#16 by decide)
theorem addIdxV (x : Reg) : Statement (.addIdxV x) := fun _ => (encodeXNN_nn _ _ _).trans (show encodeXNN 0xF#4 0 0x1E#8 = 0xF01E#16 by decide)
theorem ldFV (x : Reg) : Statement (.ldFV x) := fun _ => (encodeXNN_nn _ _ _).trans (show encodeXNN 0xF#4 0 0x29#8 = 0xF029#16 by decide)
theorem ldBV (x : Reg) : Statement (.ldBV x) := fun _ => (encodeXNN_nn _ _ _).trans (show encodeXNN 0xF#4 0 0x33#8 = 0xF033#16 by decide)
theorem ldMemV (x : Reg) : Statement (.ldMemV x) := fun _ => (encodeXNN_nn _ _ _).trans (show encodeXNN 0xF#4 0 0x55#8 = 0xF055#16 by decide)
theorem ldVMem (x : Reg) : Statement (.ldVMem x) := fun _ => (encodeXNN_nn _ _ _).trans (show encodeXNN 0xF#4 0 0x65#8 = 0xF065#16 by decide)
theorem unrecognized (w : Word) : Statement (.unrecognized w) := fun _ => BitVec.and_zero

end Sys2Proof.Laws.RowBits
end

