-- ==== Sys2Proof/Tests/Slice0.lean ====
section
/-! SUPPORT. Tests on single steps, with expected results from the spec's rules and from 95_test_vectors.md, and for every
statement with hypotheses a witness that meets them. -/

namespace Sys2Proof.Tests

open Sys2Proof.Machine

set_option Elab.async false

/-! ## Helpers -/

/-- The state after one step that fetches and runs the word, from a given state. -/
def run (w : Nat) (s : State) : Option State :=
  match step (s.withFetchWord 16 w) with
  | .next t => some t
  | _ => none

/-- One register after one step. -/
def reg (r : Reg) (w : Nat) (s : State) : Option Byte := (run w s).map (readV r)

/-- `pc` after one step. -/
def pcOf (w : Nat) (s : State) : Option Word := (run w s).map State.pc

/-- One byte of memory after one step. -/
def byteOf (a : Nat) (w : Nat) (s : State) : Option Byte := (run w s).map fun t => readByte t.mem a

/-- The status after one step. -/
def statusOf (w : Nat) (s : State) : Option Status := (run w s).map State.status

/-- The reset state with a blank screen, as the vectors ask. -/
def start : State := setFb clearGrid State.reset

/-- Registers set, one after another. -/
def withRegs : List (Reg × Byte) → State → State
  | [], s => s
  | (r, b) :: l, s => withRegs l (writeV r b s)

/-- Bytes placed in memory. -/
def withBytes (a : Nat) (bs : List Byte) (s : State) : State := setMem (writeBytes a bs s.mem) s

/-- A screen with just these pixels lit. -/
def lit (ps : List Pixel) : Grid := ps.foldl (fun g p => setPixel p true g) clearGrid

/-- The framebuffer after one step. -/
def screenOf (w : Nat) (s : State) : Option Grid := (run w s).map State.fb

/-! ## Well-formedness: an ill-formed term for each check -/

theorem test_wf_refuses_words_of_other_rows :
    Instr.wellFormed (.unrecognized 0x00E0#16) = false ∧ Instr.wellFormed (.unrecognized 0x00EE#16) = false ∧
    Instr.wellFormed (.unrecognized 0x8120#16) = false ∧ Instr.wellFormed (.unrecognized 0xE19E#16) = false ∧
    Instr.wellFormed (.unrecognized 0xF107#16) = false ∧ Instr.wellFormed (.unrecognized 0x1234#16) = false := by decide

theorem test_wf_accepts_listed_words :
    [0x0000#16, 0x0123#16, 0x00E1#16, 0x01EE#16, 0x0FFF#16, 0x8008#16, 0x800D#16, 0x800F#16, 0xE000#16, 0xE09F#16,
      0xF000#16, 0xF01F#16, 0xF0FF#16].all unrecognizedWord = true := by decide

/-! ## Decoding: each row's word, written bit by bit from its encoding in R83 -/

theorem test_decode_cls : decodeWord 0b0000000011100000#16 = .cls := by decide
theorem test_decode_ret : decodeWord 0b0000000011101110#16 = .ret := by decide
theorem test_decode_jp : decodeWord 0b0001101010111100#16 = .jp 0xABC#12 := by decide
theorem test_decode_call : decodeWord 0b0010001100000000#16 = .call 0x300#12 := by decide
theorem test_decode_seI : decodeWord 0b0011001000000101#16 = .seI 2 0x05#8 := by decide
theorem test_decode_sneI : decodeWord 0b0100001000000110#16 = .sneI 2 0x06#8 := by decide
theorem test_decode_seR : decodeWord 0b0101000100100000#16 = .seR 1 2 := by decide
theorem test_decode_ldI : decodeWord 0b0110101000111100#16 = .ldI 0xA 0x3C#8 := by decide
theorem test_decode_addI : decodeWord 0b0111000111111111#16 = .addI 1 0xFF#8 := by decide
theorem test_decode_ldR : decodeWord 0b1000111100010000#16 = .ldR 0xF 1 := by decide
theorem test_decode_or : decodeWord 0b1000000100100001#16 = .or 1 2 := by decide
theorem test_decode_and : decodeWord 0b1000000100100010#16 = .and 1 2 := by decide
theorem test_decode_xor : decodeWord 0b1000000100100011#16 = .xor 1 2 := by decide
theorem test_decode_addR : decodeWord 0b1000000011110100#16 = .addR 0 0xF := by decide
theorem test_decode_sub : decodeWord 0b1000000100100101#16 = .sub 1 2 := by decide
theorem test_decode_shr : decodeWord 0b1000000100100110#16 = .shr 1 2 := by decide
theorem test_decode_subn : decodeWord 0b1000000100100111#16 = .subn 1 2 := by decide
theorem test_decode_shl : decodeWord 0b1000000100101110#16 = .shl 1 2 := by decide
theorem test_decode_sneR : decodeWord 0b1001000100101111#16 = .sneR 1 2 := by decide
theorem test_decode_ldIdx : decodeWord 0b1010111111111111#16 = .ldIdx 0xFFF#12 := by decide
theorem test_decode_jpOfs : decodeWord 0b1011010100010010#16 = .jpOfs 5 0x12#8 := by decide
theorem test_decode_rnd : decodeWord 0b1100001100001111#16 = .rnd 3 0x0F#8 := by decide
theorem test_decode_drw : decodeWord 0b1101000100101111#16 = .drw 1 2 0xF := by decide
theorem test_decode_skp : decodeWord 0b1110000110011110#16 = .skp 1 := by decide
theorem test_decode_sknp : decodeWord 0b1110000110100001#16 = .sknp 1 := by decide
theorem test_decode_ldVDt : decodeWord 0b1111001100000111#16 = .ldVDt 3 := by decide
theorem test_decode_ldVK : decodeWord 0b1111001100001010#16 = .ldVK 3 := by decide
theorem test_decode_ldDtV : decodeWord 0b1111000100010101#16 = .ldDtV 1 := by decide
theorem test_decode_ldStV : decodeWord 0b1111000100011000#16 = .ldStV 1 := by decide
theorem test_decode_addIdxV : decodeWord 0b1111001000011110#16 = .addIdxV 2 := by decide
theorem test_decode_ldFV : decodeWord 0b1111010000101001#16 = .ldFV 4 := by decide
theorem test_decode_ldBV : decodeWord 0b1111010100110011#16 = .ldBV 5 := by decide
theorem test_decode_ldMemV : decodeWord 0b1111111101010101#16 = .ldMemV 0xF := by decide
theorem test_decode_ldVMem : decodeWord 0b1111111101100101#16 = .ldVMem 0xF := by decide
theorem test_decode_unrecognized : decodeWord 0b0000000111100000#16 = .unrecognized 0x01E0#16 := by decide

/-- The table's numbering of a row's bits reaches the decoder in the hardware's byte order; one byte is too few to decode. -/
theorem test_decode_bytes :
    decodeTableWord 16 0x6A3C = some (.ldI 0xA 0x3C#8) ∧ encodeBytes (.ldI 0xA 0x3C#8) = [0x6A#8, 0x3C#8] ∧
    decode [0x6A#8] = .error .truncated := by decide

/-! ## One step per instruction (95_test_vectors.md; the vector's id stands in the comment) -/

-- FE-1, L1-7; FE-2; FE-3; FE-4; FE-5
theorem test_step_ldI : reg 0xA 0x6A3C start = some 0x3C#8 ∧ pcOf 0x6A3C start = some 0x202#16 := by decide +kernel
theorem test_fetch_last_word : pcOf 0x0000 (setPc 0xFFE#16 start) = some 0x1000#16 := by decide +kernel
theorem test_fetch_fault : (match step (setPc 0xFFF#16 start) with
    | .next t => some (t.status, t.pc)
    | _ => none) = some (.faulted (.memFault 0x1000 .fetch 0x0FFF#16), 0xFFF#16) := by decide +kernel
theorem test_fetch_odd_pc : reg 0 0x6007 (setPc 0x201#16 start) = some 0x07#8 := by decide +kernel

-- DSP-1, DSP-2, DSP-4, DSP-5, DSP-10, DSP-9, DSP-14
theorem test_cls : screenOf 0x00E0 (setFb (setPixel (5, 5) true clearGrid) start) = some (lit []) := by decide +kernel
theorem test_drw_row : screenOf 0xD001 (setIndex 0x300#16 (withBytes 0x300 [0xFF#8] start)) =
    some (lit [(0, 0), (1, 0), (2, 0), (3, 0), (4, 0), (5, 0), (6, 0), (7, 0)]) := by decide +kernel
theorem test_drw_collides :
    screenOf 0xD001 (setFb (setPixel (1, 0) true clearGrid) (setIndex 0x300#16 (withBytes 0x300 [0xC0#8] start))) = some (lit [(0, 0)]) ∧
    reg VF 0xD001 (setFb (setPixel (1, 0) true clearGrid) (setIndex 0x300#16 (withBytes 0x300 [0xC0#8] start))) = some 1#8 := by
  decide +kernel
theorem test_drw_clips : screenOf 0xD011 (withRegs [(0, 0x3C#8)] (setIndex 0x300#16 (withBytes 0x300 [0xFF#8] start))) =
    some (lit [(60, 0), (61, 0), (62, 0), (63, 0)]) := by decide +kernel
theorem test_drw_reads_vf_first : screenOf 0xDF11 (withRegs [(VF, 5#8)] (setIndex 0x300#16 (withBytes 0x300 [0x80#8] start))) =
    some (lit [(5, 0)]) := by decide +kernel
theorem test_drw_fault : statusOf 0xD002 (setIndex 0xFFF#16 start) = some (.faulted (.memFault 0x1000 .read 0x200#16)) := by
  decide +kernel
theorem test_drw_presents_once :
    (run 0xD000 (setIndex 0xFFFF#16 start)).map (fun t => (t.presented, readV VF t)) = some ([lit []], 0#8) := by decide +kernel

-- CF-1, CF-2, CF-4, CF-7, CF-12
theorem test_ret_underflow : statusOf 0x00EE start = some (.faulted (.stackUnderflow 0x200#16)) := by decide +kernel
theorem test_ret : (run 0x00EE (setPc 0x310#16 (setStack [0x204#16] start))).map (fun t => (t.pc, t.stack)) =
    some (0x206#16, []) := by decide +kernel
theorem test_jp : pcOf 0x1228 start = some 0x228#16 := by decide +kernel
theorem test_call : (run 0x2300 (setPc 0x204#16 start)).map (fun t => (t.pc, t.stack)) = some (0x300#16, [0x204#16]) := by
  decide +kernel
theorem test_jpOfs : pcOf 0xB510 (withRegs [(0, 0x01#8), (5, 0x20#8)] start) = some 0x030#16 := by decide +kernel

-- SK-1, SK-2, SK-3, SK-4, SK-7, SK-8, SK-10, SK-11
theorem test_seI : pcOf 0x3205 (withRegs [(2, 5#8)] start) = some 0x204#16 ∧
    pcOf 0x3206 (withRegs [(2, 5#8)] start) = some 0x202#16 := by decide +kernel
theorem test_sneI : pcOf 0x4206 (withRegs [(2, 5#8)] start) = some 0x204#16 ∧
    pcOf 0x4205 (withRegs [(2, 5#8)] start) = some 0x202#16 := by decide +kernel
theorem test_seR : pcOf 0x5121 (withRegs [(1, 0x7F#8), (2, 0x7F#8)] start) = some 0x204#16 ∧
    pcOf 0x5120 (withRegs [(1, 1#8), (2, 2#8)] start) = some 0x202#16 := by decide +kernel
theorem test_sneR : pcOf 0x912F (withRegs [(1, 1#8), (2, 2#8)] start) = some 0x204#16 ∧
    pcOf 0x9110 start = some 0x202#16 := by decide +kernel

-- SK-14, SK-15, SK-16, SK-18, SK-19: the first answer after the host's turn is answer 1
theorem test_skp_held (h : Config.isHeld 1 5 = true) : pcOf 0xE09E (withRegs [(0, 5#8)] start) = some 0x204#16 := by
  change some ((if Config.isHeld 1 5 = true then 0x202#16 else 0x200#16) + 2#16) = _
  rw [h]; rfl
theorem test_sknp_held (h : Config.isHeld 1 5 = true) : pcOf 0xE0A1 (withRegs [(0, 5#8)] start) = some 0x202#16 := by
  change some ((if (!Config.isHeld 1 5) = true then 0x202#16 else 0x200#16) + 2#16) = _
  rw [h]; rfl
theorem test_skp_out_of_range : statusOf 0xE09E (withRegs [(0, 0x10#8)] start) =
    some (.faulted (.keyOutOfRange 0x10#8 0x200#16)) := by decide +kernel
theorem test_sknp_out_of_range : statusOf 0xE0A1 (withRegs [(0, 0xFF#8)] start) =
    some (.faulted (.keyOutOfRange 0xFF#8 0x200#16)) := by decide +kernel

-- ALU-2, ALU-3, ALU-5, ALU-7 to ALU-20
theorem test_addI_no_flag : reg 1 0x7102 (withRegs [(1, 0xFF#8), (VF, 0xAA#8)] start) = some 0x01#8 ∧
    reg VF 0x7102 (withRegs [(1, 0xFF#8), (VF, 0xAA#8)] start) = some 0xAA#8 := by decide +kernel
theorem test_ldR : reg 1 0x8120 (withRegs [(2, 0x42#8)] start) = some 0x42#8 := by decide +kernel
theorem test_or : reg 1 0x8121 (withRegs [(1, 0x0F#8), (2, 0xF0#8)] start) = some 0xFF#8 := by decide +kernel
theorem test_and : reg 1 0x8122 (withRegs [(1, 0x3C#8), (2, 0x0F#8)] start) = some 0x0C#8 := by decide +kernel
theorem test_xor : reg 1 0x8123 (withRegs [(1, 0xFF#8), (2, 0x0F#8)] start) = some 0xF0#8 := by decide +kernel
theorem test_addR : reg 0 0x8014 (withRegs [(0, 0xFF#8), (1, 0x01#8)] start) = some 0x00#8 ∧
    reg VF 0x8014 (withRegs [(0, 0xFF#8), (1, 0x01#8)] start) = some 1#8 := by decide +kernel
theorem test_addR_flag_last : reg VF 0x8F14 (withRegs [(VF, 0x10#8), (1, 0x01#8)] start) = some 0#8 := by decide +kernel
theorem test_sub : reg 1 0x8125 (withRegs [(1, 0x10#8), (2, 0x20#8)] start) = some 0xF0#8 ∧
    reg VF 0x8125 (withRegs [(1, 0x10#8), (2, 0x20#8)] start) = some 0#8 := by decide +kernel
theorem test_sub_equal : reg VF 0x8125 (withRegs [(1, 0x33#8), (2, 0x33#8)] start) = some 1#8 := by decide +kernel
theorem test_subn : reg 1 0x8127 (withRegs [(1, 0x20#8), (2, 0x10#8)] start) = some 0xF0#8 ∧
    reg VF 0x8127 (withRegs [(1, 0x10#8), (2, 0x20#8)] start) = some 1#8 := by decide +kernel

-- ALU-22, ALU-29; ALU-25 and ALU-31 for both values of the parameter
theorem test_shr : reg 1 0x8126 (withRegs [(1, 0x05#8), (2, 0xFF#8)] start) = some 0x02#8 ∧
    reg VF 0x8126 (withRegs [(1, 0x05#8), (2, 0xFF#8)] start) = some 1#8 := by decide +kernel
theorem test_shl : reg 1 0x810E (withRegs [(1, 0x81#8)] start) = some 0x02#8 ∧
    reg VF 0x810E (withRegs [(1, 0x81#8)] start) = some 1#8 := by decide +kernel
theorem test_shr_of_vf : readV VF (shiftV false shrFlag shrResult VF (withRegs [(VF, 0x03#8)] start)) = 0#8 ∧
    readV VF (shiftV true shrFlag shrResult VF (withRegs [(VF, 0x03#8)] start)) = 1#8 := by decide +kernel
theorem test_shl_of_vf : readV VF (shiftV false shlFlag shlResult VF (withRegs [(VF, 0x80#8)] start)) = 2#8 ∧
    readV VF (shiftV true shlFlag shlResult VF (withRegs [(VF, 0x80#8)] start)) = 1#8 := by decide +kernel

-- ALU-33, ALU-34
theorem test_rnd (h : Config.randomByte 1 = 0xA5#8) : reg 3 0xC30F start = some 0x05#8 := by
  change some (Config.randomByte 1 &&& 0x0F#8) = _
  rw [h]; rfl
theorem test_rnd_mask_zero : reg 3 0xC300 start = some 0x00#8 := by
  change some (Config.randomByte 1 &&& 0x00#8) = _
  rw [BitVec.and_zero]

-- IDX-2, IDX-3, IDX-4, IDX-8, IDX-9
theorem test_ldIdx : (run 0xAFFF start).map State.index = some 0x0FFF#16 := by decide +kernel
theorem test_addIdxV : (run 0xF21E (setIndex 0x300#16 (withRegs [(2, 0x10#8)] start))).map State.index = some 0x310#16 := by
  decide +kernel
theorem test_addIdxV_wraps : (run 0xF01E (setIndex 0xFFFF#16 (withRegs [(0, 1#8)] start))).map State.index = some 0#16 := by
  decide +kernel
theorem test_ldFV : (run 0xF429 (withRegs [(4, 0xFF#8)] start)).map State.index = some 0x4FB#16 ∧
    (run 0xF429 (withRegs [(4, 0x10#8)] start)).map State.index = some 0x050#16 := by decide +kernel

-- IDX-10, IDX-15, IDX-16, IDX-19, IDX-20, IDX-22
theorem test_ldBV : (run 0xF533 (setIndex 0x300#16 (withRegs [(5, 0x9C#8)] start))).map
    (fun t => [0x300, 0x301, 0x302].map (readByte t.mem)) = some [1#8, 5#8, 6#8] := by decide +kernel
theorem test_ldBV_fault : (run 0xF533 (setIndex 0xFFE#16 (withRegs [(5, 0x09#8)] start))).map
    (fun t => (t.status, readByte t.mem 0xFFE)) = some (.faulted (.memFault 0x1000 .write 0x200#16), 0#8) := by decide +kernel
theorem test_ldMemV : (run 0xF255 (setIndex 0x300#16 (withRegs [(0, 1#8), (1, 2#8), (2, 3#8), (3, 4#8)] start))).map
    (fun t => ([0x300, 0x301, 0x302, 0x303].map (readByte t.mem), t.index)) =
      some ([1#8, 2#8, 3#8, 0#8], 0x300#16) := by decide +kernel
theorem test_ldMemV_fault : statusOf 0xFF55 (setIndex 0xFF1#16 start) =
    some (.faulted (.memFault 0x1000 .write 0x200#16)) := by decide +kernel
theorem test_ldVMem : (run 0xF065 (setIndex 0x300#16 (withRegs [(1, 0x77#8)] (withBytes 0x300 [0x42#8, 0x43#8] start)))).map
    (fun t => (readV 0 t, readV 1 t)) = some (0x42#8, 0x77#8) := by decide +kernel
theorem test_ldVMem_fault : statusOf 0xF065 (setIndex 0x1000#16 start) =
    some (.faulted (.memFault 0x1000 .read 0x200#16)) := by decide +kernel

-- TK-1 (as `exec`, with no tick before it), TK-2, TK-3, TK-4, TK-6, TK-7, TK-8
theorem test_ldVDt : (match exec (.ldVDt 3) (setDt 0x3C#8 start) with
    | .next t => some (readV 3 t)
    | _ => none) = some 0x3C#8 := by decide +kernel
theorem test_ldDtV : (run 0xF015 (withRegs [(0, 0x3C#8)] start)).map State.dt = some 0x3C#8 := by decide +kernel
theorem test_ldStV : (run 0xF018 (withRegs [(0, 0x05#8)] start)).map State.st = some 0x05#8 := by decide +kernel
theorem test_tick_floor : (tickTimers (setDt 1#8 start)).dt = 0#8 ∧ (tickTimers (setDt 1#8 start)).st = 0#8 := by decide +kernel
theorem test_tick_twice : (runTicks 2 (setSt 2#8 (setDt 0x3C#8 start))).dt = 0x3A#8 ∧
    (runTicks 2 (setSt 2#8 (setDt 0x3C#8 start))).st = 0#8 := by decide +kernel
theorem test_ldVK_stalls (h : Config.poll 1 = none) : pcOf 0xF30A (setPc 0x210#16 start) = some 0x210#16 := by
  change some (State.pc (if (Config.poll 1).isNone = true then takeKey 3 (Config.poll 1) _ else
    setPc (_ + 2#16) (takeKey 3 (Config.poll 1) _))) = _
  rw [h]; rfl
theorem test_ldVK_takes_key (h : Config.poll 1 = some 7) : reg 3 0xF30A (setPc 0x210#16 start) = some 7#8 := by
  change some (readV 3 (if (Config.poll 1).isNone = true then takeKey 3 (Config.poll 1) _ else
    setPc (_ + 2#16) (takeKey 3 (Config.poll 1) _))) = _
  rw [h]; rfl

-- L2-UNR; P7: the fetch sees an earlier store
theorem test_unrecognized : pcOf 0x0000 (setPc 0x300#16 start) = some 0x302#16 := by decide +kernel

-- RST-2, RST-3, L1-3
theorem test_new : (match new [0x12#8, 0x00#8] with
    | .ok t => some (readByte t.mem 0x200, readByte t.mem 0x201, readByte t.mem 0x202, t.pc)
    | .error _ => none) = some (0x12#8, 0#8, 0#8, 0x200#16) := by decide +kernel
theorem test_new_too_large : (match new (List.replicate 3585 0#8) with
    | .ok _ => none
    | .error e => some e) = some .romTooLarge := by decide +kernel

/-! ## Witnesses: a state and operands that meet the hypotheses of each statement -/

theorem witness_DecodeOfEncodeIsTheInstruction :
    Instr.wellFormed (.unrecognized 0x8128#16) = true ∧ Instr.wellFormed (.jp 0xFFF#12) = true := by decide

theorem witness_OpcodeMapSelectsTheRow :
    Instr.isUnrecognized .cls = false ∧
    ∀ i : Instr, i.isUnrecognized = false → 0x0000#16 &&& i.row.1 ≠ i.row.2 := by
  refine ⟨rfl, fun i h => ?_⟩
  cases i <;> simp_all [Instr.isUnrecognized, Instr.row]

/-- A word under the mask and match of every row: the hypotheses of the `Encoded` clauses. -/
theorem witness_Encoded :
    (0x00E0#16 &&& 0xFFFF#16 = 0x00E0#16) ∧ (0x00EE#16 &&& 0xFFFF#16 = 0x00EE#16) ∧
    (0x1FFF#16 &&& 0xF000#16 = 0x1000#16) ∧ (0x2FFF#16 &&& 0xF000#16 = 0x2000#16) ∧
    (0x3FFF#16 &&& 0xF000#16 = 0x3000#16) ∧ (0x4FFF#16 &&& 0xF000#16 = 0x4000#16) ∧
    (0x5FFF#16 &&& 0xF000#16 = 0x5000#16) ∧ (0x6FFF#16 &&& 0xF000#16 = 0x6000#16) ∧
    (0x7FFF#16 &&& 0xF000#16 = 0x7000#16) ∧ (0x8FF0#16 &&& 0xF00F#16 = 0x8000#16) ∧
    (0x8FF1#16 &&& 0xF00F#16 = 0x8001#16) ∧ (0x8FF2#16 &&& 0xF00F#16 = 0x8002#16) ∧
    (0x8FF3#16 &&& 0xF00F#16 = 0x8003#16) ∧ (0x8FF4#16 &&& 0xF00F#16 = 0x8004#16) ∧
    (0x8FF5#16 &&& 0xF00F#16 = 0x8005#16) ∧ (0x8FF6#16 &&& 0xF00F#16 = 0x8006#16) ∧
    (0x8FF7#16 &&& 0xF00F#16 = 0x8007#16) ∧ (0x8FFE#16 &&& 0xF00F#16 = 0x800E#16) ∧
    (0x9FFF#16 &&& 0xF000#16 = 0x9000#16) ∧ (0xAFFF#16 &&& 0xF000#16 = 0xA000#16) ∧
    (0xBFFF#16 &&& 0xF000#16 = 0xB000#16) ∧ (0xCFFF#16 &&& 0xF000#16 = 0xC000#16) ∧
    (0xDFFF#16 &&& 0xF000#16 = 0xD000#16) ∧ (0xEF9E#16 &&& 0xF0FF#16 = 0xE09E#16) ∧
    (0xEFA1#16 &&& 0xF0FF#16 = 0xE0A1#16) ∧ (0xFF07#16 &&& 0xF0FF#16 = 0xF007#16) ∧
    (0xFF0A#16 &&& 0xF0FF#16 = 0xF00A#16) ∧ (0xFF15#16 &&& 0xF0FF#16 = 0xF015#16) ∧
    (0xFF18#16 &&& 0xF0FF#16 = 0xF018#16) ∧ (0xFF1E#16 &&& 0xF0FF#16 = 0xF01E#16) ∧
    (0xFF29#16 &&& 0xF0FF#16 = 0xF029#16) ∧ (0xFF33#16 &&& 0xF0FF#16 = 0xF033#16) ∧
    (0xFF55#16 &&& 0xF0FF#16 = 0xF055#16) ∧ (0xFF65#16 &&& 0xF0FF#16 = 0xF065#16) := by decide

theorem witness_StepRunsTheDecodedInstruction :
    let s := (setPc 0xFFE#16 start).withFetchWord 16 0x6A3C
    s.status = .running ∧ s.pc.toNat + 1 < 0x1000 ∧
      decodeWord (joinBytes (readByte s.mem s.pc.toNat) (readByte s.mem (s.pc.toNat + 1))) = .ldI 0xA 0x3C#8 := by
  decide +kernel

theorem witness_FetchFaultsOutOfRange :
    0xFFF ≤ (setPc 0xFFF#16 start).pc.toNat ∧ (setPc 0xFFE#16 start).pc.toNat < 0xFFF := by decide

/-- Each fault of the table at its boundary, and its neighbour without one. -/
theorem witness_FaultsAreExactlyThoseOfTheTable :
    start.status = .running ∧
    Instr.faultOf .ret start = some (.stackUnderflow 0x200#16) ∧ Instr.faultOf .ret (setStack [0#16] start) = none ∧
    Instr.faultOf (.skp 0) (writeV 0 0x10#8 start) = some (.keyOutOfRange 0x10#8 0x200#16) ∧
    Instr.faultOf (.sknp 0) (writeV 0 0x0F#8 start) = none ∧
    Instr.faultOf (.drw 0 0 1) (setIndex 0x1000#16 start) = some (.memFault 0x1000 .read 0x200#16) ∧
    Instr.faultOf (.drw 0 0 0) (setIndex 0x1000#16 start) = none ∧
    Instr.faultOf (.ldBV 0) (setIndex 0xFFE#16 start) = some (.memFault 0x1000 .write 0x200#16) ∧
    Instr.faultOf (.ldMemV 0) (setIndex 0xFFF#16 start) = none ∧
    Instr.faultOf (.ldVMem 0) (setIndex 0xFFFF#16 start) = some (.memFault 0xFFFF .read 0x200#16) := by decide +kernel

theorem witness_FaultChangesOnlyStatus :
    let s := start.withFetchWord 16 0x00EE
    s.status = .running ∧ (∃ t, coreStep s = .next t ∧ t.status = .faulted (.stackUnderflow 0x200#16)) ∧
      (setStatus (.faulted (.stackUnderflow 0x200#16)) s).status = .faulted (.stackUnderflow 0x200#16) :=
  ⟨rfl, ⟨_, rfl, rfl⟩, rfl⟩

/-- For the statements about every instruction: one that goes on, with a register it neither reads nor writes, a register it
does not read alone, and an address it does not store to. -/
theorem witness_EveryInstruction :
    (∃ t, exec (.ldMemV 1) (setIndex 0x300#16 start) = .next t) ∧ 0x302 ∉ Instr.stores (.ldMemV 1) (setIndex 0x300#16 start) ∧
    (∃ t, exec (.addR 1 2) start = .next t) ∧ Instr.writesReg (.addR 1 2) 3 = false ∧
    (∃ t, exec (.addR 1 2) (writeV VF 7#8 start) = .next t) ∧ Instr.readsReg (.addR 1 2) VF = false ∧
    Instr.faultOf (.addR 1 2) start = none :=
  ⟨⟨_, rfl⟩, by decide +kernel, ⟨_, rfl⟩, rfl, ⟨_, rfl⟩, rfl, rfl⟩

theorem witness_SoundTimerIsNeverRead :
    (∃ t, exec (.ldStV 1) start = .next t) ∧ ∃ t, exec (.ldStV 1) (setSt 9#8 start) = .next t := ⟨⟨_, rfl⟩, ⟨_, rfl⟩⟩

/-- The hypotheses of `PcMovesInTheListedWays` for each of its kinds. -/
theorem witness_PcMovesInTheListedWays :
    (∃ t, exec (.jp 0xFFF#12) start = .next t) ∧ (∃ t, exec (.call 0xFFF#12) start = .next t) ∧
    (∃ t, exec (.jpOfs 0 0xFF#8) start = .next t) ∧ (∃ t, exec .ret (setStack [0xFFE#16] start) = .next t) ∧
    Instr.faultOf .ret (setStack [0xFFE#16] start) = none ∧ (∃ t, exec (.seI 0 0#8) start = .next t) ∧
    (∃ t, exec (.skp 0) start = .next t) ∧ Instr.faultOf (.skp 0) start = none ∧ (∃ t, exec (.ldVK 0) start = .next t) :=
  ⟨⟨_, rfl⟩, ⟨_, rfl⟩, ⟨_, rfl⟩, ⟨_, rfl⟩, rfl, ⟨_, rfl⟩, ⟨_, rfl⟩, rfl, ⟨_, rfl⟩⟩

/-- The invariant's hypotheses, for `StepKeepsTheInvariant` and `PresentedFramesOnlyGrow`: a state just after a call. -/
theorem witness_StepKeepsTheInvariant :
    let s := setStack [0xFFE#16] start
    Inv s ∧ ∃ t, step s = .next t := by
  refine ⟨⟨rfl, by decide, ?_, ?_⟩, ⟨_, rfl⟩⟩
  · intro a h
    simp only [setStack_stack, List.mem_singleton] at h
    subst h; decide
  · intro f h; exact absurd h (by simp [start, State.reset])

theorem witness_PresentedFramesOnlyGrow : ∃ t, step (start.withFetchWord 16 0xD000) = .next t := ⟨_, rfl⟩

theorem witness_NewLeavesTheResetValues : ∃ t, new [0x12#8, 0x00#8] = .ok t := ⟨_, rfl⟩

theorem witness_NewFailsExactlyWhenTheImageOverflows :
    0x200 + (List.replicate 3585 0#8).length > 0x1000 ∧ 0x200 + (List.replicate 3584 0#8).length ≤ 0x1000 := by
  rw [List.length_replicate, List.length_replicate]; decide

/-- A sprite that just fits, one without rows at any index, and one that just does not fit. -/
theorem witness_DrwDrawsTheSprite :
    ((0xF : Count).val = 0 ∨ (setIndex 0xFF1#16 start).index.toNat + (0xF : Count).val ≤ 0x1000) ∧
    ((0 : Count).val = 0 ∨ (setIndex 0xFFFF#16 start).index.toNat + (0 : Count).val ≤ 0x1000) ∧
    ((0xF : Count).val ≠ 0 ∧ 0x1000 < (setIndex 0xFF2#16 start).index.toNat + (0xF : Count).val) := by decide

theorem witness_DrawingTwiceRestoresTheScreen :
    let s := setIndex 0x300#16 (withBytes 0x300 [0xF0#8, 0x90#8, 0xF0#8] start)
    (0 : Reg) ≠ VF ∧ (1 : Reg) ≠ VF ∧ s.status = .running ∧
      ∃ t u, exec (.drw 0 1 3) s = .next t ∧ t.status = .running ∧ exec (.drw 0 1 3) t = .next u :=
  ⟨by decide, by decide, rfl, _, _, rfl, rfl, rfl⟩

theorem witness_RetReturnsPastTheCall :
    (setStack [0x204#16, 0x300#16] start).stack = [0x204#16] ++ [0x300#16] ∧ start.stack = [] := by decide

theorem witness_RetAfterCallLandsAfterTheCall :
    ∃ t u w, exec (.call 0x300#12) start = .next t ∧ u = writeV 0 1#8 t ∧ u.stack = t.stack ∧ exec .ret u = .next w :=
  ⟨_, _, _, rfl, rfl, rfl, rfl⟩

theorem witness_SkipsOnTheKey :
    (readV 0 (writeV 0 0x00#8 start)).toNat = (0x0 : Key).val ∧ (readV 0 (writeV 0 0x0F#8 start)).toNat = (0xF : Key).val := by
  decide +kernel

theorem witness_KeyNumbersAboveFifteenFault : 0xF < (readV 0 (writeV 0 0x10#8 start)).toNat := by decide +kernel

theorem witness_RndMasksTheHostsByte : (0x0F#8).getLsbD 7 = false := by decide

theorem witness_LdBVStoresTheDecimalDigits :
    Memory.wf start.mem = true ∧ (setIndex 0xFFD#16 start).index.toNat + 2 < 0x1000 ∧
    0x1000 ≤ (setIndex 0xFFE#16 start).index.toNat + 2 ∧ 0x300 ∉ accessList 0xFFD 3 := by decide

/-- Also for `LdVMemLoadsTheRegisters`: the last index that fits and the first that does not. -/
theorem witness_LdMemVStoresTheRegisters :
    Memory.wf start.mem = true ∧ (setIndex 0xFF0#16 start).index.toNat + (0xF : Reg).val < 0x1000 ∧
    0x1000 ≤ (setIndex 0xFF1#16 start).index.toNat + (0xF : Reg).val := by decide

theorem witness_LoadAfterDumpRestoresTheRegisters :
    let s := setIndex 0xFFE#16 (writeV 1 9#8 start)
    Memory.wf s.mem = true ∧ s.status = .running ∧ ∃ t u w, exec (.ldMemV 1) s = .next t ∧ t.status = .running ∧
      u = writeV 1 0#8 t ∧ u.index = t.index ∧ u.mem = t.mem ∧ exec (.ldVMem 1) u = .next w ∧ w.status = .running :=
  ⟨rfl, rfl, _, _, _, rfl, rfl, rfl, rfl, rfl, rfl, rfl⟩

theorem witness_FetchSeesTheStoredBytes :
    let s := setIndex 0xFFE#16 (writeV 0 0x12#8 start)
    Memory.wf s.mem = true ∧ s.status = .running ∧ ∃ t u, exec (.ldMemV 1) s = .next t ∧ t.status = .running ∧
      (1 : Reg).val = (0 : Reg).val + 1 ∧ (1 : Reg) ≤ 1 ∧ u = setPc 0xFFE#16 t ∧ u.mem = t.mem ∧
      u.pc.toNat = s.index.toNat + (0 : Reg).val :=
  ⟨rfl, rfl, _, _, rfl, rfl, rfl, by decide, rfl, rfl, rfl⟩

theorem witness_UnrecognizedWordsOnlyAdvance : unrecognizedWord 0xFFFF#16 = true := by decide

theorem witness_ParkedCoreStaysParked : Parked (start.withFetchWord 16 0x1200) :=
  ⟨rfl, by decide +kernel, 0x200#12, by decide +kernel, by decide +kernel⟩

/-- A safe step exists, and an unsafe one. -/
theorem witness_SafeStep : SafeStep (start.withFetchWord 16 0x6A3C) ∧ ¬ SafeStep (start.withFetchWord 16 0x00EE) := by
  refine ⟨⟨_, rfl, rfl⟩, ?_⟩
  rintro ⟨t, h, hr⟩
  have : t.status = .faulted (.stackUnderflow 0x200#16) := by cases h; rfl
  rw [this] at hr; cases hr

end Sys2Proof.Tests
end

section
/-! What `new` answers and what the reset memory holds (R46, R230). -/

namespace Sys2Proof.Machine

/-! ## What `new` answers -/

/-- `new` answers a state exactly for an image that fits, and that state is reset with the image written at `0x200`. -/
theorem new_eq_ok_iff {rom : List Byte} {t : State} :
    new rom = .ok t ↔ Config.progStart + rom.length ≤ Config.memSize ∧
      t = setMem (writeBytes Config.progStart rom State.reset.mem) State.reset := by
  unfold new
  split
  · next hbig => simp [Nat.not_le.2 hbig]
  · next hfit => simp [Nat.not_lt.1 hfit, eq_comm]

/-! ## What reset holds -/

theorem readByte_reset_font {a : Nat} (h : a < Config.fontSize) : readByte State.reset.mem a = Config.font a :=
  if_pos h

theorem readByte_reset_zero {a : Nat} (h : Config.fontSize ≤ a) : readByte State.reset.mem a = 0#8 :=
  if_neg (Nat.not_lt.2 h)

theorem readV_reset (r : Reg) : readV r State.reset = 0#8 :=
  Vector.getElem_replicate r.isLt

/-! ## The reset values after `new` -/

/-- Settles O20: `new` writes nothing but the image, so an address outside the image reads as it does in the reset memory and
every other part of the state is that of reset. -/
theorem newLeavesTheResetValues : Obligations.NewLeavesTheResetValues := by
  intro rom t h
  obtain ⟨hfit, rfl⟩ := new_eq_ok_iff.1 h
  have outside : ∀ a, a < 0x200 ∨ 0x200 + rom.length ≤ a →
      readByte (writeBytes 0x200 rom State.reset.mem) a = readByte State.reset.mem a :=
    fun a ha => readByte_writeBytes_other rom _ ha
  refine ⟨?font, ?gap, ?image, ?rest, readV_reset, rfl, rfl, rfl, rfl, rfl, rfl, rfl⟩
  case font =>
    intro k hk
    exact (outside k (by omega)).trans (readByte_reset_font hk)
  case gap =>
    intro a hfont hprog
    exact (outside a (.inl hprog)).trans (readByte_reset_zero hfont)
  case image =>
    intro k hk
    exact readByte_writeBytes_same rom reset_mem_wf hfit hk
  case rest =>
    intro a ha
    exact (outside a (.inr ha)).trans (readByte_reset_zero (show 80 ≤ a by omega))

end Sys2Proof.Machine
end

section
/-! The words that decode to the fallback row, group by group (R79 to R81). -/

namespace Sys2Proof

/-! ## The listed words, by the fields of the word -/

section
variable {w : Word}

theorem unrecognizedWord_group0 (h : (opField w).val = 0x0) :
    unrecognizedWord w = (w != 0x00E0#16 && w != 0x00EE#16) :=
  if_pos h

theorem unrecognizedWord_group8 (h : (opField w).val = 0x8) :
    unrecognizedWord w = [0x8, 0x9, 0xA, 0xB, 0xC, 0xD, 0xF].contains (nField w).val := by
  change (w.extractLsb' 12 4).toNat = 0x8 at h
  simp only [unrecognizedWord, h]; rfl

theorem unrecognizedWord_groupE (h : (opField w).val = 0xE) :
    unrecognizedWord w = !([0x9E, 0xA1].contains (nnField w).toNat) := by
  change (w.extractLsb' 12 4).toNat = 0xE at h
  simp only [unrecognizedWord, h]; rfl

theorem unrecognizedWord_groupF (h : (opField w).val = 0xF) :
    unrecognizedWord w =
      !([0x07, 0x0A, 0x15, 0x18, 0x1E, 0x29, 0x33, 0x55, 0x65].contains (nnField w).toNat) := by
  change (w.extractLsb' 12 4).toNat = 0xF at h
  simp only [unrecognizedWord, h]; rfl

/-- The groups other than 0, 8, E and F have no listed word. -/
theorem unrecognizedWord_otherGroup {k : Nat} (h : (opField w).val = k)
    (hk : k ≠ 0x0 ∧ k ≠ 0x8 ∧ k ≠ 0xE ∧ k ≠ 0xF) : unrecognizedWord w = false := by
  obtain ⟨h0, h8, hE, hF⟩ := hk
  change (w.extractLsb' 12 4).toNat = k at h
  simp only [unrecognizedWord, h, if_neg h0, if_neg h8, if_neg hE, if_neg hF]

/-! ## The decoder falls back exactly on the listed words -/

/-- What the decoder owes a word: a listed word becomes the fallback that carries it, any other word another row. -/
def FallsBackIfListed (w : Word) (i : Instr) : Prop :=
  (unrecognizedWord w = true ∧ i = .unrecognized w) ∨ (unrecognizedWord w = false ∧ i.isUnrecognized = false)

theorem decodeGroup0_fallsBackIfListed (h : (opField w).val = 0x0) : FallsBackIfListed w (decodeGroup0 w) := by
  unfold FallsBackIfListed decodeGroup0
  rw [unrecognizedWord_group0 h]
  split
  · next hcls => exact .inr ⟨by simp [hcls], rfl⟩
  · split
    · next hret => exact .inr ⟨by simp [hret], rfl⟩
    · next hcls hret => exact .inl ⟨by simp [hcls, hret], rfl⟩

theorem decodeGroup8_fallsBackIfListed (h : (opField w).val = 0x8) : FallsBackIfListed w (decodeGroup8 w) := by
  unfold FallsBackIfListed decodeGroup8
  rw [unrecognizedWord_group8 h]
  have hn := (nField w).isLt
  split
  case h_10 =>
    refine .inl ⟨?_, rfl⟩
    simp only [imp_false, List.contains_iff_mem, List.mem_cons, List.not_mem_nil] at *
    omega
  all_goals next hrow => exact .inr ⟨by rw [hrow]; rfl, rfl⟩

theorem decodeGroupE_fallsBackIfListed (h : (opField w).val = 0xE) : FallsBackIfListed w (decodeGroupE w) := by
  unfold FallsBackIfListed decodeGroupE
  rw [unrecognizedWord_groupE h]
  split
  case h_3 =>
    refine .inl ⟨?_, rfl⟩
    simp_all
  all_goals next hrow => exact .inr ⟨by rw [hrow]; rfl, rfl⟩

theorem decodeGroupF_fallsBackIfListed (h : (opField w).val = 0xF) : FallsBackIfListed w (decodeGroupF w) := by
  unfold FallsBackIfListed decodeGroupF
  rw [unrecognizedWord_groupF h]
  split
  case h_10 =>
    refine .inl ⟨?_, rfl⟩
    simp_all
  all_goals next hrow => exact .inr ⟨by rw [hrow]; rfl, rfl⟩
end

theorem decodeWord_fallsBackIfListed (w : Word) : FallsBackIfListed w (decodeWord w) := by
  have hop := (opField w).isLt
  unfold decodeWord
  split
  case h_1 h => exact decodeGroup0_fallsBackIfListed h
  case h_9 h => exact decodeGroup8_fallsBackIfListed h
  case h_15 h => exact decodeGroupE_fallsBackIfListed h
  case h_16 =>
    simp only [imp_false] at *
    exact decodeGroupF_fallsBackIfListed (by omega)
  all_goals next h => exact .inr ⟨unrecognizedWord_otherGroup h (by decide), rfl⟩

theorem wellFormed_of_not_isUnrecognized {i : Instr} (h : i.isUnrecognized = false) : i.wellFormed = true := by
  cases i
  case unrecognized => cases h
  all_goals rfl

/-- Settles O3: a word is listed and decodes to the fallback that carries it, or it is not and decodes to another row. -/
theorem unrecognizedWordsAreThoseListed : Obligations.UnrecognizedWordsAreThoseListed := by
  intro w
  obtain ⟨hlisted, hdecode⟩ | ⟨hlisted, hdecode⟩ := decodeWord_fallsBackIfListed w
  · rw [hdecode, hlisted]
    exact ⟨hlisted, by simp, by simp [Instr.isUnrecognized]⟩
  · have hne : decodeWord w ≠ .unrecognized w := by
      intro h; rw [h] at hdecode; cases hdecode
    simp [wellFormed_of_not_isUnrecognized hdecode, hne, hdecode, hlisted]

end Sys2Proof
end

section
/-! The fetch phase of `coreStep`: the word at `pc`, or the fault (R54, R75). -/

namespace Sys2Proof.Machine

theorem joinBytes_toNat (hi lo : Byte) : (joinBytes hi lo).toNat = hi.toNat * 256 + lo.toNat := by
  rw [joinBytes, BitVec.toNat_append, ← Nat.shiftLeft_add_eq_or_of_lt lo.isLt, Nat.shiftLeft_eq]

theorem coreStep_of_fetch_inRange {s : State} (h : s.pc.toNat + 1 < Config.memSize) :
    coreStep s = exec (decodeWord (wordAt s.mem s.pc.toNat)) s := by
  rw [coreStep, fetch_ok h, orRaise_ok]

theorem coreStep_of_fetch_outOfRange {s : State} (h : Config.memSize ≤ s.pc.toNat + 1) :
    coreStep s = .next (setStatus (.faulted (.memFault (max s.pc.toNat Config.memSize) .fetch s.pc)) s) := by
  rw [coreStep, fetch_error h, orRaise_error, raiseFault_eq]

/-- Settles O8: `pc + 1` leaves memory exactly from `pc = 0xFFF` on. -/
theorem fetchFaultsOutOfRange : Obligations.FetchFaultsOutOfRange := by
  refine ⟨fun s h => ?outOfRange, fun s h => ?inRange⟩
  case outOfRange => exact coreStep_of_fetch_outOfRange (show 0x1000 ≤ s.pc.toNat + 1 by omega)
  case inRange =>
    exact ⟨_, joinBytes_toNat _ _, coreStep_of_fetch_inRange (show s.pc.toNat + 1 < 0x1000 by omega)⟩

end Sys2Proof.Machine
end

section
/-! The display instructions `00E0` and `Dxyn` (R100 to R107). -/

namespace Sys2Proof.Machine

/-! ## Frames of the updates that a display instruction is made of -/

section
variable {ps : List Part} {s t u : State}

theorem Part.same.trans {p : Part} (h₁ : p.same s t) (h₂ : p.same t u) : p.same s u := by
  cases p
  case regs | memory | screen => exact fun a => (h₂ a).trans (h₁ a)
  all_goals exact Eq.trans h₂ h₁

theorem OnlyChanges.trans (h₁ : OnlyChanges ps s t) (h₂ : OnlyChanges ps t u) : OnlyChanges ps s u :=
  fun p hp => (h₁ p hp).trans (h₂ p hp)

theorem onlyChanges_setPc {a : Word} (h : .pc ∈ ps) : OnlyChanges ps s (setPc a s) := by
  intro p hp
  cases p
  case pc => exact absurd h hp
  case regs | memory | screen => exact fun _ => rfl
  all_goals rfl

theorem onlyChanges_writeV {x : Reg} {b : Byte} (h : .regs ∈ ps) : OnlyChanges ps s (writeV x b s) := by
  intro p hp
  cases p
  case regs => exact absurd h hp
  case memory | screen => exact fun _ => rfl
  all_goals rfl

theorem onlyChanges_setFb {g : Grid} (h : .screen ∈ ps) : OnlyChanges ps s (setFb g s) := by
  intro p hp
  cases p
  case screen => exact absurd h hp
  case regs | memory => exact fun _ => rfl
  all_goals rfl

theorem onlyChanges_present (h : .frames ∈ ps) : OnlyChanges ps s (present s) := by
  intro p hp
  cases p
  case frames => exact absurd h hp
  case regs | memory | screen => exact fun _ => rfl
  all_goals rfl
end

/-! ## CLS -/

theorem exec_cls (s : State) : exec .cls s = .next (setPc (s.pc + 2#16) (setFb clearGrid s)) := rfl

/-- Settles O24: CLS writes the cleared grid and advances `pc`, and does nothing else. -/
theorem clsClearsTheScreen : Obligations.ClsClearsTheScreen := by
  refine ⟨encoded_whole rfl, fun s => ⟨_, exec_cls s, rfl, pixelAt_clearGrid, ?frame⟩⟩
  case frame => exact (onlyChanges_setFb (by simp)).trans (onlyChanges_setPc (by simp))

/-! ## What drawing a sprite does to the state -/

section
variable (px py : Nat) (rows : List Byte) (s : State)

theorem drawSprite_presented :
    (drawSprite px py rows s).presented = s.presented ++ [(drawSprite px py rows s).fb] := rfl

theorem readV_drawSprite_VF :
    readV VF (drawSprite px py rows s) = flagByte (toggleAll (spriteTargets px py rows) s.fb).2 := by
  simp [drawSprite]

theorem readV_drawSprite_other {r : Reg} (h : r ≠ VF) : readV r (drawSprite px py rows s) = readV r s := by
  simp [drawSprite, h]

/-- The collision of R106: `VF` is 1 exactly when a target of the sprite was lit. -/
theorem readV_drawSprite_VF_eq_one_iff :
    readV VF (drawSprite px py rows s) = 1#8 ↔ ∃ p ∈ spriteTargets px py rows, pixelAt s.fb p = true := by
  rw [readV_drawSprite_VF, (flagByte_spec _).2, (toggleAll_spec (spriteTargets_nodup px py rows) s.fb).2]

theorem onlyChanges_drawSprite {ps : List Part} (hregs : .regs ∈ ps) (hscreen : .screen ∈ ps) (hframes : .frames ∈ ps) :
    OnlyChanges ps s (drawSprite px py rows s) :=
  ((onlyChanges_writeV hregs).trans (onlyChanges_setFb hscreen)).trans (onlyChanges_present hframes)
end

/-! ## DRW -/

/-- The sprite's rows as DRW reads them from `index` on (R103). -/
def spriteRows (n : Count) (s : State) : List Byte := (accessList s.index.toNat n.val).map (readByte s.mem)

section
variable {x y : Reg} {n : Count} {s : State}

theorem mem_spriteTargets_spriteRows {px py : Nat} {p : Pixel} :
    p ∈ spriteTargets px py (spriteRows n s) ↔ spriteBit s px py n.val p = true := by
  rw [← decide_mem_spriteTargets, decide_eq_true_eq, spriteRows]

theorem exec_drw : exec (.drw x y n) s = execDrw x y n s := rfl

theorem exec_drw_inRange (h : n.val = 0 ∨ s.index.toNat + n.val ≤ Config.memSize) :
    exec (.drw x y n) s =
      .next (setPc (s.pc + 2#16) (drawSprite (readV x s).toNat (readV y s).toNat (spriteRows n s) s)) := by
  rw [exec_drw, execDrw, loadBytes_ok h, orRaise_ok]; rfl

theorem exec_drw_outOfRange (h : n.val ≠ 0 ∧ Config.memSize < s.index.toNat + n.val) :
    exec (.drw x y n) s =
      .next (setStatus (.faulted (.memFault (max s.index.toNat Config.memSize) .read s.pc)) s) := by
  rw [exec_drw, execDrw, loadBytes_error h, orRaise_error, raiseFault_eq]
end

theorem encoded_drw : Encoded 0xF000#16 0xD000#16 (fun w => .drw (xField w) (yField w) (nField w)) :=
  encoded_op fun w h => by rw [decodeWord, h]; rfl

/-- Settles O25: the rows are read and checked first; the targets are the set bits of the sprite on the screen, each visited
once, so each is inverted once and the flag is whether one of them was lit. -/
theorem drwDrawsTheSprite : Obligations.DrwDrawsTheSprite := by
  refine ⟨encoded_drw, fun x y n s h => ?draws, fun x y n s hrows hend => exec_drw_outOfRange ⟨hrows, hend⟩⟩
  case draws =>
    refine ⟨_, exec_drw_inRange h, rfl, ?pixels, ?flag, ?collision, fun r hr => readV_drawSprite_other _ _ _ s hr,
      drawSprite_presented _ _ _ s, ?frame⟩
    case frame =>
      exact (onlyChanges_drawSprite _ _ _ s (by simp) (by simp) (by simp)).trans (onlyChanges_setPc (by simp))
    case pixels =>
      intro p
      rw [setPc_fb, drawSprite_pixel, spriteRows, decide_mem_spriteTargets]
    case flag =>
      rw [readV_setPc, readV_drawSprite_VF]
      exact (flagByte_spec _).1
    case collision =>
      simp only [readV_setPc, readV_drawSprite_VF_eq_one_iff, mem_spriteTargets_spriteRows, and_comm]

end Sys2Proof.Machine
end

section
/-! The control flow instructions `00EE`, `1nnn`, `2nnn` and `Bxnn` (R120 to R123). -/

namespace Sys2Proof.Machine

/-! ## The words of the four rows -/

theorem encoded_jp : Encoded 0xF000#16 0x1000#16 (fun w => .jp (nnnField w)) :=
  encoded_op fun w h => by rw [decodeWord, h]; rfl

theorem encoded_call : Encoded 0xF000#16 0x2000#16 (fun w => .call (nnnField w)) :=
  encoded_op fun w h => by rw [decodeWord, h]; rfl

theorem encoded_jpOfs : Encoded 0xF000#16 0xB000#16 (fun w => .jpOfs (xField w) (nnField w)) :=
  encoded_op fun w h => by rw [decodeWord, h]; rfl

/-! ## The targets as natural numbers -/

@[simp] theorem zextAddr_toNat (nnn : Addr) : (zextAddr nnn).toNat = nnn.toNat :=
  BitVec.toNat_setWidth_of_le (by decide)

@[simp] theorem zextByte_toNat (b : Byte) : (zextByte b).toNat = b.toNat :=
  BitVec.toNat_setWidth_of_le (by decide)

/-- The sum of two bytes is at most `0x1FE`, so the 16-bit sum does not wrap (R123). -/
theorem zextByte_add_toNat (b c : Byte) : (zextByte b + zextByte c).toNat = b.toNat + c.toNat := by
  have hb := b.isLt
  have hc := c.isLt
  rw [BitVec.toNat_add, zextByte_toNat, zextByte_toNat, Nat.mod_eq_of_lt (by omega)]

/-! ## What each instruction answers -/

section
variable {ps : List Part} {s : State}

theorem onlyChanges_setStack {l : List Word} (h : .stack ∈ ps) : OnlyChanges ps s (setStack l s) := by
  intro p hp
  cases p
  case stack => exact absurd h hp
  case regs | memory | screen => exact fun _ => rfl
  all_goals rfl

theorem onlyChanges_push {a : Word} (h : .stack ∈ ps) : OnlyChanges ps s (push a s) :=
  onlyChanges_setStack h

theorem exec_ret : exec .ret s = execRet s := rfl

theorem exec_ret_of_append {l : List Word} {a : Word} (h : s.stack = l ++ [a]) :
    exec .ret s = .next (setPc (a + 2#16) (setStack l s)) := by
  rw [exec_ret, execRet, pop_append h]; rfl

theorem exec_ret_of_empty (h : s.stack = []) :
    exec .ret s = .next (setStatus (.faulted (.stackUnderflow s.pc)) s) := by
  rw [exec_ret, execRet, pop_empty h]; rfl
end

theorem exec_jp (nnn : Addr) (s : State) : exec (.jp nnn) s = .next (setPc (zextAddr nnn) s) := rfl

theorem exec_call (nnn : Addr) (s : State) :
    exec (.call nnn) s = .next (setPc (zextAddr nnn) (push s.pc s)) := rfl

theorem exec_jpOfs (x : Reg) (nn : Byte) (s : State) :
    exec (.jpOfs x nn) s = .next (setPc (zextByte nn + zextByte (readV x s)) s) := rfl

/-! ## RET, JP, CALL and JP_OFS -/

/-- Settles O27: RET pops the call's address and the epilogue passes it; with nothing to pop it only records the fault. -/
theorem retReturnsPastTheCall : Obligations.RetReturnsPastTheCall := by
  refine ⟨encoded_whole rfl, fun s l a h => ⟨_, exec_ret_of_append h, rfl, rfl, ?frame⟩, fun s => exec_ret_of_empty⟩
  case frame => exact (onlyChanges_setStack (by simp)).trans (onlyChanges_setPc (by simp))

/-- Settles O28: JP writes the zero-extended address to `pc`, and the epilogue adds nothing. -/
theorem jpJumps : Obligations.JpJumps :=
  ⟨encoded_jp, fun nnn s => ⟨_, exec_jp nnn s, zextAddr_toNat nnn, onlyChanges_setPc (by simp)⟩⟩

/-- Settles O29: CALL pushes the `pc` it was fetched from before it writes the target to `pc`. -/
theorem callPushesItsOwnAddress : Obligations.CallPushesItsOwnAddress := by
  refine ⟨encoded_call, fun nnn s => ⟨_, exec_call nnn s, zextAddr_toNat nnn, push_stack s s.pc, ?frame⟩⟩
  case frame => exact (onlyChanges_push (by simp)).trans (onlyChanges_setPc (by simp))

/-- Settles O31: JP_OFS writes the sum of the zero-extended bytes to `pc`, which does not wrap. -/
theorem jpOfsJumpsToLowBytePlusRegister : Obligations.JpOfsJumpsToLowBytePlusRegister :=
  ⟨encoded_jpOfs, fun x nn s =>
    ⟨_, exec_jpOfs x nn s, zextByte_add_toNat nn (readV x s), onlyChanges_setPc (by simp)⟩⟩

end Sys2Proof.Machine
end

section
/-! The conditional skips `3xnn`, `4xnn`, `5xyN`, `9xyN` and the key faults of `Ex9E` and `ExA1` (R130 to R133, R136). -/

namespace Sys2Proof.Machine

/-! ## The words of the four comparing rows -/

theorem encoded_seI : Encoded 0xF000#16 0x3000#16 (fun w => .seI (xField w) (nnField w)) :=
  encoded_op fun w h => by rw [decodeWord, h]; rfl

theorem encoded_sneI : Encoded 0xF000#16 0x4000#16 (fun w => .sneI (xField w) (nnField w)) :=
  encoded_op fun w h => by rw [decodeWord, h]; rfl

theorem encoded_seR : Encoded 0xF000#16 0x5000#16 (fun w => .seR (xField w) (yField w)) :=
  encoded_op fun w h => by rw [decodeWord, h]; rfl

theorem encoded_sneR : Encoded 0xF000#16 0x9000#16 (fun w => .sneR (xField w) (yField w)) :=
  encoded_op fun w h => by rw [decodeWord, h]; rfl

/-! ## A skip and the epilogue together -/

/-- The extra advance of a skip that is taken and the default advance add up to 4 (R78). -/
theorem finish_skipIf (c : Bool) (s : State) :
    finish false (skipIf c s) = .next (setPc (if c then s.pc + 4#16 else s.pc + 2#16) s) := by
  cases c
  case false => rfl
  case true =>
    have hpc : s.pc + 2#16 + 2#16 = s.pc + 4#16 := BitVec.add_assoc _ _ _
    rw [finish_eq, skipIf_pc, if_pos rfl, if_pos rfl, hpc]; rfl

theorem finish_skipIf_beq (a b : Byte) (s : State) :
    finish false (skipIf (a == b) s) = .next (setPc (if a = b then s.pc + 4#16 else s.pc + 2#16) s) := by
  simp only [finish_skipIf, beq_iff_eq]

theorem finish_skipIf_bne (a b : Byte) (s : State) :
    finish false (skipIf (a != b) s) = .next (setPc (if a = b then s.pc + 2#16 else s.pc + 4#16) s) := by
  simp only [finish_skipIf, bne_iff_ne, ite_not]

/-! ## What each instruction answers -/

theorem exec_seI (x : Reg) (nn : Byte) (s : State) : exec (.seI x nn) s =
    .next (setPc (if readV x s = nn then s.pc + 4#16 else s.pc + 2#16) s) :=
  finish_skipIf_beq _ _ s

theorem exec_sneI (x : Reg) (nn : Byte) (s : State) : exec (.sneI x nn) s =
    .next (setPc (if readV x s = nn then s.pc + 2#16 else s.pc + 4#16) s) :=
  finish_skipIf_bne _ _ s

theorem exec_seR (x y : Reg) (s : State) : exec (.seR x y) s =
    .next (setPc (if readV x s = readV y s then s.pc + 4#16 else s.pc + 2#16) s) :=
  finish_skipIf_beq _ _ s

theorem exec_sneR (x y : Reg) (s : State) : exec (.sneR x y) s =
    .next (setPc (if readV x s = readV y s then s.pc + 2#16 else s.pc + 4#16) s) :=
  finish_skipIf_bne _ _ s

theorem exec_skp (x : Reg) (s : State) : exec (.skp x) s = keySkip id x s := rfl

theorem exec_sknp (x : Reg) (s : State) : exec (.sknp x) s = keySkip not x s := rfl

/-! ## SE_I, SNE_I, SE_R and SNE_R -/

/-- Settles O32: the comparison with the immediate decides the one write, which is to `pc`. -/
theorem skipsOnTheImmediate : Obligations.SkipsOnTheImmediate :=
  ⟨encoded_seI, encoded_sneI,
    fun x nn s => ⟨_, exec_seI x nn s, rfl, onlyChanges_setPc (by simp)⟩,
    fun x nn s => ⟨_, exec_sneI x nn s, rfl, onlyChanges_setPc (by simp)⟩⟩

/-- Settles O33: the comparison of the two registers decides the one write, which is to `pc`. -/
theorem skipsOnTheRegister : Obligations.SkipsOnTheRegister :=
  ⟨encoded_seR, encoded_sneR,
    fun x y s => ⟨_, exec_seR x y s, rfl, onlyChanges_setPc (by simp)⟩,
    fun x y s => ⟨_, exec_sneR x y s, rfl, onlyChanges_setPc (by simp)⟩⟩

/-! ## SKP and SKNP on a value that is no key -/

/-- Settles O35: both key skips check the value before they ask the host, so the fault is raised from the state before. -/
theorem keyNumbersAboveFifteenFault : Obligations.KeyNumbersAboveFifteenFault := by
  intro x s h
  have faults : ∀ skips, keySkip skips x s =
      .next (setStatus (.faulted (.keyOutOfRange (readV x s) s.pc)) s) := fun _ =>
    (keySkip_outOfRange h).trans (raiseFault_eq _ s)
  exact ⟨(exec_skp x s).trans (faults id), (exec_sknp x s).trans (faults not)⟩

end Sys2Proof.Machine
end

section
/-! The register and ALU instructions `6xnn`, `7xnn` and `8xy0` to `8xy7`, `8xyE` (R142 to R152, R154). -/

namespace Sys2Proof.Machine

/-! ## The words of the rows -/

theorem encoded_ldI : Encoded 0xF000#16 0x6000#16 (fun w => .ldI (xField w) (nnField w)) :=
  encoded_op fun w h => by rw [decodeWord, h]; rfl

theorem encoded_addI : Encoded 0xF000#16 0x7000#16 (fun w => .addI (xField w) (nnField w)) :=
  encoded_op fun w h => by rw [decodeWord, h]; rfl

theorem decodeWord_of_group8 {w : Word} (h : opField w = 0x8) : decodeWord w = decodeGroup8 w := by
  rw [decodeWord, h]; rfl

/-- In group 8 the low nibble alone selects the row (R79). -/
theorem encoded_group8 {value : Word} {f : Word → Instr} (hop : opField value = 0x8)
    (h : ∀ w, nField w = nField value → decodeGroup8 w = f w) : Encoded 0xF00F#16 value f :=
  encoded_n fun w hw hn => (decodeWord_of_group8 (hw.trans hop)).trans (h w hn)

theorem encoded_ldR : Encoded 0xF00F#16 0x8000#16 (fun w => .ldR (xField w) (yField w)) :=
  encoded_group8 rfl fun w h => by rw [decodeGroup8, h]; rfl

theorem encoded_or : Encoded 0xF00F#16 0x8001#16 (fun w => .or (xField w) (yField w)) :=
  encoded_group8 rfl fun w h => by rw [decodeGroup8, h]; rfl

theorem encoded_and : Encoded 0xF00F#16 0x8002#16 (fun w => .and (xField w) (yField w)) :=
  encoded_group8 rfl fun w h => by rw [decodeGroup8, h]; rfl

theorem encoded_xor : Encoded 0xF00F#16 0x8003#16 (fun w => .xor (xField w) (yField w)) :=
  encoded_group8 rfl fun w h => by rw [decodeGroup8, h]; rfl

theorem encoded_addR : Encoded 0xF00F#16 0x8004#16 (fun w => .addR (xField w) (yField w)) :=
  encoded_group8 rfl fun w h => by rw [decodeGroup8, h]; rfl

theorem encoded_sub : Encoded 0xF00F#16 0x8005#16 (fun w => .sub (xField w) (yField w)) :=
  encoded_group8 rfl fun w h => by rw [decodeGroup8, h]; rfl

theorem encoded_shr : Encoded 0xF00F#16 0x8006#16 (fun w => .shr (xField w) (yField w)) :=
  encoded_group8 rfl fun w h => by rw [decodeGroup8, h]; rfl

theorem encoded_subn : Encoded 0xF00F#16 0x8007#16 (fun w => .subn (xField w) (yField w)) :=
  encoded_group8 rfl fun w h => by rw [decodeGroup8, h]; rfl

theorem encoded_shl : Encoded 0xF00F#16 0x800E#16 (fun w => .shl (xField w) (yField w)) :=
  encoded_group8 rfl fun w h => by rw [decodeGroup8, h]; rfl

/-! ## The results and flags as natural numbers -/

theorem flagByte_decide (p : Prop) [Decidable p] : flagByte (decide p) = if p then 1#8 else 0#8 := by
  simp only [flagByte, decide_eq_true_eq]

theorem byte_sub_eq_ofNat (a b : Byte) : a - b = BitVec.ofNat 8 (256 + a.toNat - b.toNat) := by
  have hb := b.isLt
  rw [BitVec.sub_def, ← Nat.sub_add_comm (Nat.le_of_lt hb)]

theorem shrFlag_eq_ofNat (a : Byte) : shrFlag a = BitVec.ofNat 8 (a.toNat % 2) := by
  refine BitVec.eq_of_toNat_eq ?_
  rw [shrFlag, BitVec.toNat_and, BitVec.toNat_ofNat, BitVec.toNat_ofNat, Nat.and_one_is_mod]
  omega

theorem shrResult_eq_ofNat (a : Byte) : shrResult a = BitVec.ofNat 8 (a.toNat / 2) := by
  have ha := a.isLt
  refine BitVec.eq_of_toNat_eq ?_
  rw [shrResult, BitVec.toNat_ushiftRight, BitVec.toNat_ofNat, Nat.shiftRight_eq_div_pow]
  omega

theorem shlFlag_eq_ofNat (a : Byte) : shlFlag a = BitVec.ofNat 8 (a.toNat / 128) := by
  have ha := a.isLt
  refine BitVec.eq_of_toNat_eq ?_
  rw [shlFlag, BitVec.toNat_and, BitVec.toNat_ushiftRight, BitVec.toNat_ofNat, BitVec.toNat_ofNat,
    Nat.and_one_is_mod, Nat.shiftRight_eq_div_pow]
  omega

theorem shlResult_eq_ofNat (a : Byte) : shlResult a = BitVec.ofNat 8 (2 * a.toNat) := by
  refine BitVec.eq_of_toNat_eq ?_
  rw [shlResult, BitVec.toNat_shiftLeft, BitVec.toNat_ofNat, Nat.shiftLeft_eq, Nat.mul_comm]

/-- A right shift of the flag leaves nothing (R154). -/
theorem shrResult_shrFlag (a : Byte) : shrResult (shrFlag a) = 0#8 := by
  have hflag : a.toNat % 2 % 2 ^ 8 / 2 = 0 := by omega
  rw [shrResult_eq_ofNat, shrFlag_eq_ofNat, BitVec.toNat_ofNat, hflag]

/-- A left shift of the flag doubles it (R154). -/
theorem shlResult_shlFlag (a : Byte) : shlResult (shlFlag a) = BitVec.ofNat 8 (2 * (a.toNat / 128)) := by
  have ha := a.isLt
  have hflag : a.toNat / 128 % 2 ^ 8 = a.toNat / 128 := by omega
  rw [shlResult_eq_ofNat, shlFlag_eq_ofNat, BitVec.toNat_ofNat, hflag]

/-- `readV_shiftV` with `VF` first, as R150 and R152 name what a shift writes. -/
theorem readV_shiftV_flagFirst (flagLast : Bool) (flag shift : Byte → Byte) (x r : Reg) (s : State) :
    readV r (shiftV flagLast flag shift x s) =
      if r = VF then if x = VF ∧ flagLast = false then shift (flag (readV x s)) else flag (readV x s)
      else if r = x then shift (readV x s) else readV r s := by
  rw [readV_shiftV]
  by_cases hx : x = VF
  · subst hx
    by_cases hr : r = VF
    · cases flagLast <;> simp [hr]
    · simp [hr]
  · by_cases hr : r = x
    · simp [hr, hx]
    · simp [hr, hx]

/-! ## The frame of a register write and the epilogue -/

section
variable {s t : State} {a : Word}

theorem onlyChanges_setV {ps : List Part} {v : Vector Byte 16} (h : .regs ∈ ps) : OnlyChanges ps s (setV v s) := by
  intro p hp
  cases p
  case regs => exact absurd h hp
  case memory | screen => exact fun _ => rfl
  all_goals rfl

theorem onlyChanges_setPc_of_setV (h : ∃ v, t = setV v s) : OnlyChanges [.pc, .regs] s (setPc a t) := by
  obtain ⟨v, rfl⟩ := h
  exact (onlyChanges_setV (by simp)).trans (onlyChanges_setPc (by simp))

theorem onlyChanges_setPc_writeV {x : Reg} {b : Byte} : OnlyChanges [.pc, .regs] s (setPc a (writeV x b s)) :=
  onlyChanges_setPc_of_setV ⟨_, rfl⟩

theorem onlyChanges_setPc_writeThenFlag {x : Reg} {p : Byte × Byte} :
    OnlyChanges [.pc, .regs] s (setPc a (writeThenFlag x p s)) :=
  onlyChanges_setPc_of_setV ⟨_, rfl⟩

theorem onlyChanges_setPc_shiftV {flagLast : Bool} {flag shift : Byte → Byte} {x : Reg} :
    OnlyChanges [.pc, .regs] s (setPc a (shiftV flagLast flag shift x s)) :=
  onlyChanges_setPc_of_setV (shiftV_setV s flagLast flag shift x)
end

/-! ## What each instruction answers -/

section
variable (x y : Reg) (nn : Byte) (s : State)

theorem exec_ldI : exec (.ldI x nn) s = .next (setPc (s.pc + 2#16) (writeV x nn s)) := rfl

theorem exec_addI : exec (.addI x nn) s = .next (setPc (s.pc + 2#16) (writeV x (readV x s + nn) s)) := rfl

theorem exec_ldR : exec (.ldR x y) s = .next (setPc (s.pc + 2#16) (writeV x (readV y s) s)) := rfl

theorem exec_or : exec (.or x y) s = .next (setPc (s.pc + 2#16) (writeV x (readV x s ||| readV y s) s)) := rfl

theorem exec_and : exec (.and x y) s = .next (setPc (s.pc + 2#16) (writeV x (readV x s &&& readV y s) s)) := rfl

theorem exec_xor : exec (.xor x y) s = .next (setPc (s.pc + 2#16) (writeV x (readV x s ^^^ readV y s) s)) := rfl

theorem exec_addR : exec (.addR x y) s =
    .next (setPc (s.pc + 2#16) (writeThenFlag x (addWithCarry (readV x s) (readV y s)) s)) := rfl

theorem exec_sub : exec (.sub x y) s =
    .next (setPc (s.pc + 2#16) (writeThenFlag x (subWithBorrow (readV x s) (readV y s)) s)) := rfl

theorem exec_subn : exec (.subn x y) s =
    .next (setPc (s.pc + 2#16) (writeThenFlag x (subWithBorrow (readV y s) (readV x s)) s)) := rfl

theorem exec_shr : exec (.shr x y) s = finish false (shiftV Config.shiftFlagLast shrFlag shrResult x s) := rfl

theorem exec_shl : exec (.shl x y) s = finish false (shiftV Config.shiftFlagLast shlFlag shlResult x s) := rfl

theorem finish_shiftV (flagLast : Bool) (flag shift : Byte → Byte) :
    finish false (shiftV flagLast flag shift x s) =
      .next (setPc (s.pc + 2#16) (shiftV flagLast flag shift x s)) := by
  rw [finish_eq, shiftV_pc]; rfl
end

/-! ## LD_I, ADD_I and LD_R -/

/-- Settles O36: LD_I writes the immediate to the one register. -/
theorem ldISetsTheRegister : Obligations.LdISetsTheRegister :=
  ⟨encoded_ldI, fun x nn s =>
    ⟨_, exec_ldI x nn s, rfl, fun r => readV_writeV x r _ s, onlyChanges_setPc_writeV⟩⟩

/-- Settles O37: ADD_I writes the wrapped sum to the one register, so `VF` changes only as `V[x]`. -/
theorem addIAddsWithoutFlag : Obligations.AddIAddsWithoutFlag := by
  refine ⟨encoded_addI, fun x nn s => ⟨_, exec_addI x nn s, rfl, fun r => ?sum, onlyChanges_setPc_writeV⟩⟩
  case sum => rw [readV_setPc, readV_writeV, BitVec.add_def]

/-- Settles O38: LD_R writes the value of `V[y]` before the instruction to the one register. -/
theorem ldRCopies : Obligations.LdRCopies :=
  ⟨encoded_ldR, fun x y s =>
    ⟨_, exec_ldR x y s, rfl, fun r => readV_writeV x r _ s, onlyChanges_setPc_writeV⟩⟩

/-! ## OR, AND and XOR -/

/-- An instruction that writes `b` to `V[x]` and nothing else sets `V[x]` bit by bit as `b` is. -/
theorem writesBits_of_writeV {o : Host.Outcome State Fault Refusal} {x : Reg} {b : Byte} {s : State} {bit : Nat → Bool}
    (ho : o = .next (setPc (s.pc + 2#16) (writeV x b s))) (hbit : ∀ k, b.getLsbD k = bit k) :
    ∃ t, o = .next t ∧ t.pc = s.pc + 2#16 ∧ (∀ k, (readV x t).getLsbD k = bit k) ∧
      (∀ r, r ≠ x → readV r t = readV r s) ∧ OnlyChanges [.pc, .regs] s t := by
  refine ⟨_, ho, rfl, fun k => ?written, fun r hr => ?others, onlyChanges_setPc_writeV⟩
  case written => rw [readV_setPc, readV_writeV, if_pos rfl, hbit]
  case others => rw [readV_setPc, readV_writeV, if_neg hr]

/-- Settles O39: each of the three writes its bitwise result to `V[x]` alone. -/
theorem logicOperationsBitByBit : Obligations.LogicOperationsBitByBit :=
  ⟨encoded_or, encoded_and, encoded_xor,
    fun x y s => writesBits_of_writeV (exec_or x y s) fun _ => BitVec.getLsbD_or,
    fun x y s => writesBits_of_writeV (exec_and x y s) fun _ => BitVec.getLsbD_and,
    fun x y s => writesBits_of_writeV (exec_xor x y s) fun _ => BitVec.getLsbD_xor⟩

/-! ## ADD_R, SUB and SUBN -/

/-- Settles O40: the wrapped sum is written first and the carry last, so for `x = 0xF` the carry stays. -/
theorem addRAddsWithCarry : Obligations.AddRAddsWithCarry := by
  refine ⟨encoded_addR, fun x y s => ⟨_, exec_addR x y s, rfl, fun r => ?sum, onlyChanges_setPc_writeThenFlag⟩⟩
  case sum => rw [readV_setPc, readV_writeThenFlag, addWithCarry, flagByte_decide]

/-- A register after a subtraction: the flag last, the difference modulo 256 in `V[x]` (R140, R141). -/
theorem readV_writeThenFlag_subWithBorrow (x r : Reg) (a b : Byte) (s : State) :
    readV r (writeThenFlag x (subWithBorrow a b) s) =
      if r = VF then (if a.toNat ≥ b.toNat then 1#8 else 0#8)
      else if r = x then BitVec.ofNat 8 (256 + a.toNat - b.toNat) else readV r s := by
  rw [readV_writeThenFlag, subWithBorrow, flagByte_decide, byte_sub_eq_ofNat]

/-- Settles O41: the wrapped difference is written first and the no-borrow flag last. -/
theorem subSubtractsWithNoBorrowFlag : Obligations.SubSubtractsWithNoBorrowFlag :=
  ⟨encoded_sub, fun x y s =>
    ⟨_, exec_sub x y s, rfl, fun r => readV_writeThenFlag_subWithBorrow x r _ _ s, onlyChanges_setPc_writeThenFlag⟩⟩

/-- Settles O42: the subtraction of O41 with its operands reversed. -/
theorem subnSubtractsReversed : Obligations.SubnSubtractsReversed :=
  ⟨encoded_subn, fun x y s =>
    ⟨_, exec_subn x y s, rfl, fun r => readV_writeThenFlag_subWithBorrow x r _ _ s, onlyChanges_setPc_writeThenFlag⟩⟩

/-! ## SHR and SHL -/

/-- Settles O43: a shift for every value of `SHIFT_FLAG_LAST`; for `x = 0xF` the default order shifts the flag itself. -/
theorem shrAndShlShiftByOne : Obligations.ShrAndShlShiftByOne := by
  refine ⟨encoded_shr, encoded_shl,
    fun x y s => ⟨_, (exec_shr x y s).trans (finish_shiftV ..), rfl, fun r => ?right, onlyChanges_setPc_shiftV⟩,
    fun x y s => ⟨_, (exec_shl x y s).trans (finish_shiftV ..), rfl, fun r => ?left, onlyChanges_setPc_shiftV⟩⟩
  case right =>
    rw [readV_setPc, readV_shiftV_flagFirst, shrResult_shrFlag, shrFlag_eq_ofNat, shrResult_eq_ofNat]
  case left =>
    rw [readV_setPc, readV_shiftV_flagFirst, shlResult_shlFlag, shlFlag_eq_ofNat, shlResult_eq_ofNat]

end Sys2Proof.Machine
end

section
/-! The index register and memory instructions `Annn`, `Fx1E`, `Fx29`, `Fx33`, `Fx55` and `Fx65` (R160 to R166). -/

namespace Sys2Proof.Machine

/-! ## The words of the rows -/

theorem encoded_ldIdx : Encoded 0xF000#16 0xA000#16 (fun w => .ldIdx (nnnField w)) :=
  encoded_op fun w h => by rw [decodeWord, h]; rfl

theorem decodeWord_of_groupF {w : Word} (h : opField w = 0xF) : decodeWord w = decodeGroupF w := by
  rw [decodeWord, h]; rfl

/-- In group F the low byte alone selects the row (R80). -/
theorem encoded_groupF {value : Word} {f : Word → Instr} (hop : opField value = 0xF)
    (h : ∀ w, nnField w = nnField value → decodeGroupF w = f w) : Encoded 0xF0FF#16 value f :=
  encoded_nn fun w hw hnn => (decodeWord_of_groupF (hw.trans hop)).trans (h w hnn)

theorem encoded_addIdxV : Encoded 0xF0FF#16 0xF01E#16 (fun w => .addIdxV (xField w)) :=
  encoded_groupF rfl fun w h => by rw [decodeGroupF, h]; rfl

theorem encoded_ldFV : Encoded 0xF0FF#16 0xF029#16 (fun w => .ldFV (xField w)) :=
  encoded_groupF rfl fun w h => by rw [decodeGroupF, h]; rfl

theorem encoded_ldBV : Encoded 0xF0FF#16 0xF033#16 (fun w => .ldBV (xField w)) :=
  encoded_groupF rfl fun w h => by rw [decodeGroupF, h]; rfl

theorem encoded_ldMemV : Encoded 0xF0FF#16 0xF055#16 (fun w => .ldMemV (xField w)) :=
  encoded_groupF rfl fun w h => by rw [decodeGroupF, h]; rfl

theorem encoded_ldVMem : Encoded 0xF0FF#16 0xF065#16 (fun w => .ldVMem (xField w)) :=
  encoded_groupF rfl fun w h => by rw [decodeGroupF, h]; rfl

/-! ## The index as a natural number -/

theorem index_add_zextByte_toNat (a : Word) (b : Byte) : (a + zextByte b).toNat = (a.toNat + b.toNat) % 65536 := by
  rw [BitVec.toNat_add, zextByte_toNat]

/-- A glyph's address is at most `5 * 0xFF`, so it does not wrap (R162). -/
theorem glyphAddr_toNat (b : Byte) : (glyphAddr b).toNat = 5 * b.toNat := by
  have hb := b.isLt
  exact (BitVec.toNat_ofNat _ _).trans (Nat.mod_eq_of_lt (show 5 * b.toNat < 65536 by omega))

/-! ## Frames -/

section
variable {ps : List Part} {s : State}

theorem onlyChanges_setIndex {a : Word} (h : .index ∈ ps) : OnlyChanges ps s (setIndex a s) := by
  intro p hp
  cases p
  case index => exact absurd h hp
  case regs | memory | screen => exact fun _ => rfl
  all_goals rfl

theorem onlyChanges_setMem {m : Memory} (h : .memory ∈ ps) : OnlyChanges ps s (setMem m s) := by
  intro p hp
  cases p
  case memory => exact absurd h hp
  case regs | screen => exact fun _ => rfl
  all_goals rfl

theorem onlyChanges_setPc_setIndex {a b : Word} : OnlyChanges [.pc, .index] s (setPc a (setIndex b s)) :=
  (onlyChanges_setIndex (by simp)).trans (onlyChanges_setPc (by simp))
end

/-! ## LD_IDX, ADD_IDX_V and LD_F_V -/

theorem exec_ldIdx (nnn : Addr) (s : State) :
    exec (.ldIdx nnn) s = .next (setPc (s.pc + 2#16) (setIndex (zextAddr nnn) s)) := rfl

theorem exec_addIdxV (x : Reg) (s : State) :
    exec (.addIdxV x) s = .next (setPc (s.pc + 2#16) (setIndex (s.index + zextByte (readV x s)) s)) := rfl

theorem exec_ldFV (x : Reg) (s : State) :
    exec (.ldFV x) s = .next (setPc (s.pc + 2#16) (setIndex (glyphAddr (readV x s)) s)) := rfl

/-- Settles O45: LD_IDX writes the zero-extended address to `index`. -/
theorem ldIdxSetsTheIndex : Obligations.LdIdxSetsTheIndex :=
  ⟨encoded_ldIdx, fun nnn s => ⟨_, exec_ldIdx nnn s, rfl, zextAddr_toNat nnn, onlyChanges_setPc_setIndex⟩⟩

/-- Settles O46: ADD_IDX_V writes the 16-bit sum to `index` and no flag. -/
theorem addIdxVAddsToTheIndex : Obligations.AddIdxVAddsToTheIndex :=
  ⟨encoded_addIdxV, fun x s =>
    ⟨_, exec_addIdxV x s, rfl, index_add_zextByte_toNat s.index (readV x s), onlyChanges_setPc_setIndex⟩⟩

/-- Settles O47: LD_F_V multiplies the whole register value, and the product fits 16 bits. -/
theorem ldFVPointsAtTheGlyph : Obligations.LdFVPointsAtTheGlyph :=
  ⟨encoded_ldFV, fun x s => ⟨_, exec_ldFV x s, rfl, glyphAddr_toNat (readV x s), onlyChanges_setPc_setIndex⟩⟩

/-! ## Storing bytes from `index` on -/

/-- The state with the bytes stored from `index` on, as `Fx33` and `Fx55` leave it before the epilogue. -/
def storeAtIndex (bs : List Byte) (s : State) : State := setMem (writeBytes s.index.toNat bs s.mem) s

section
variable {bs : List Byte} {s : State}

theorem orRaise_storeBytes_inRange (h : s.index.toNat + bs.length ≤ Config.memSize) :
    orRaise (storeBytes s.index.toNat bs s) s (finish false) = .next (setPc (s.pc + 2#16) (storeAtIndex bs s)) := by
  rw [storeBytes_ok h, orRaise_ok]; rfl

theorem orRaise_storeBytes_outOfRange (h : bs.length ≠ 0 ∧ Config.memSize < s.index.toNat + bs.length) :
    orRaise (storeBytes s.index.toNat bs s) s (finish false) =
      .next (setStatus (.faulted (.memFault (max s.index.toNat Config.memSize) .write s.pc)) s) := by
  rw [storeBytes_error h, orRaise_error, raiseFault_eq]

theorem readByte_storeAtIndex_same {k : Nat} (hwf : Memory.wf s.mem = true)
    (h : s.index.toNat + bs.length ≤ Config.memSize) (hk : k < bs.length) :
    readByte (storeAtIndex bs s).mem (s.index.toNat + k) = bs[k] :=
  readByte_writeBytes_same bs hwf h hk

theorem readByte_storeAtIndex_other {n a : Nat} (hn : bs.length = n) (h : a ∉ accessList s.index.toNat n) :
    readByte (storeAtIndex bs s).mem a = readByte s.mem a := by
  rw [mem_accessList, ← hn] at h
  exact readByte_writeBytes_other bs s.mem (by omega)

theorem onlyChanges_setPc_storeAtIndex {a : Word} : OnlyChanges [.pc, .memory] s (setPc a (storeAtIndex bs s)) :=
  (onlyChanges_setMem (by simp)).trans (onlyChanges_setPc (by simp))
end

/-! ## LD_B_V -/

section
variable {x : Reg} {s : State}

theorem exec_ldBV : exec (.ldBV x) s = execLdBV x s := rfl

theorem exec_ldBV_inRange (h : s.index.toNat + 2 < Config.memSize) :
    exec (.ldBV x) s = .next (setPc (s.pc + 2#16) (storeAtIndex (decimalDigits (readV x s)) s)) := by
  rw [exec_ldBV, execLdBV, orRaise_storeBytes_inRange (by rw [decimalDigits_length]; omega)]

theorem exec_ldBV_outOfRange (h : Config.memSize ≤ s.index.toNat + 2) :
    exec (.ldBV x) s =
      .next (setStatus (.faulted (.memFault (max s.index.toNat Config.memSize) .write s.pc)) s) := by
  rw [exec_ldBV, execLdBV, orRaise_storeBytes_outOfRange (by rw [decimalDigits_length]; omega)]
end

/-- Settles O48: LD_B_V stores the three digits from `index` on, all of them or, out of range, none. -/
theorem ldBVStoresTheDecimalDigits : Obligations.LdBVStoresTheDecimalDigits := by
  refine ⟨encoded_ldBV, fun x s hwf h => ?stores, fun _ _ => exec_ldBV_outOfRange⟩
  case stores =>
    have digit : ∀ k (hk : k < 3), readByte (storeAtIndex (decimalDigits (readV x s)) s).mem (s.index.toNat + k) =
        (decimalDigits (readV x s))[k] := fun k =>
      readByte_storeAtIndex_same (bs := decimalDigits (readV x s)) hwf (show s.index.toNat + 3 ≤ 0x1000 by omega)
    refine ⟨_, exec_ldBV_inRange h, rfl, ?hundreds, ?tens, ?units,
      fun _ => readByte_storeAtIndex_other (decimalDigits_length _), onlyChanges_setPc_storeAtIndex⟩
    case hundreds => exact (congrArg BitVec.toNat (digit 0 (by decide))).trans BitVec.toNat_udiv
    case tens => exact (congrArg BitVec.toNat (digit 1 (by decide))).trans BitVec.toNat_umod
    case units => exact (congrArg BitVec.toNat (digit 2 (by decide))).trans BitVec.toNat_umod

/-! ## LD_MEM_V -/

section
variable {x : Reg} {s : State}

theorem exec_ldMemV : exec (.ldMemV x) s = execLdMemV x s := rfl

theorem exec_ldMemV_inRange (h : s.index.toNat + x.val < Config.memSize) :
    exec (.ldMemV x) s = .next (setPc (s.pc + 2#16) (storeAtIndex (firstRegs x s) s)) := by
  rw [exec_ldMemV, execLdMemV, orRaise_storeBytes_inRange (by rw [firstRegs_length]; omega)]

theorem exec_ldMemV_outOfRange (h : Config.memSize ≤ s.index.toNat + x.val) :
    exec (.ldMemV x) s =
      .next (setStatus (.faulted (.memFault (max s.index.toNat Config.memSize) .write s.pc)) s) := by
  rw [exec_ldMemV, execLdMemV, orRaise_storeBytes_outOfRange (by rw [firstRegs_length]; omega)]

/-- A dumped register reads back at its address. -/
theorem readByte_storeAtIndex_firstRegs {r : Reg} (hwf : Memory.wf s.mem = true)
    (h : s.index.toNat + x.val < Config.memSize) (hr : r ≤ x) :
    readByte (storeAtIndex (firstRegs x s) s).mem (s.index.toNat + r.val) = readV r s := by
  have hlen := firstRegs_length x s
  have hrx : r.val ≤ x.val := hr
  rw [readByte_storeAtIndex_same hwf (by omega) (show r.val < (firstRegs x s).length by omega), firstRegs_getElem]
end

/-- Settles O49: LD_MEM_V stores the registers from `index` on, all of them or, out of range, none. -/
theorem ldMemVStoresTheRegisters : Obligations.LdMemVStoresTheRegisters := by
  refine ⟨encoded_ldMemV, fun x s hwf h => ?stores, fun _ _ => exec_ldMemV_outOfRange⟩
  case stores =>
    exact ⟨_, exec_ldMemV_inRange h, rfl, fun _ => readByte_storeAtIndex_firstRegs hwf h,
      fun _ => readByte_storeAtIndex_other (firstRegs_length x s), onlyChanges_setPc_storeAtIndex⟩

/-! ## LD_V_MEM -/

/-- The state with `V0` to `Vx` loaded from `index` on, as `Fx65` leaves it before the epilogue. -/
def loadRegs (x : Reg) (s : State) : State :=
  setV (fillRegs 0 ((accessList s.index.toNat (x.val + 1)).map (readByte s.mem)) s.v) s

section
variable {x : Reg} {s : State}

theorem exec_ldVMem : exec (.ldVMem x) s = execLdVMem x s := rfl

theorem exec_ldVMem_inRange (h : s.index.toNat + x.val < Config.memSize) :
    exec (.ldVMem x) s = .next (setPc (s.pc + 2#16) (loadRegs x s)) := by
  rw [exec_ldVMem, execLdVMem, loadBytes_ok (.inr (by omega)), orRaise_ok]; rfl

theorem exec_ldVMem_outOfRange (h : Config.memSize ≤ s.index.toNat + x.val) :
    exec (.ldVMem x) s =
      .next (setStatus (.faulted (.memFault (max s.index.toNat Config.memSize) .read s.pc)) s) := by
  rw [exec_ldVMem, execLdVMem, loadBytes_error (by omega), orRaise_error, raiseFault_eq]

theorem readV_loadRegs {r : Reg} :
    readV r (loadRegs x s) = if r ≤ x then readByte s.mem (s.index.toNat + r.val) else readV r s := by
  rw [readV, loadRegs, setV_v, getElem_fillRegs]
  by_cases h : r ≤ x
  · have hlen : r.val < x.val + 1 := Nat.lt_succ_of_le h
    simp [h, hlen, accessList_getElem]
  · have hlen : ¬ r.val < x.val + 1 := fun hlt => h (Nat.le_of_lt_succ hlt)
    simp [h, hlen, readV]
end

/-- Settles O50: LD_V_MEM fills the registers up to `x` with the bytes from `index` on; out of range it loads none. -/
theorem ldVMemLoadsTheRegisters : Obligations.LdVMemLoadsTheRegisters :=
  ⟨encoded_ldVMem,
    fun _ _ h => ⟨_, exec_ldVMem_inRange h, rfl, fun _ => readV_loadRegs, onlyChanges_setPc_of_setV ⟨_, rfl⟩⟩,
    fun _ _ => exec_ldVMem_outOfRange⟩

/-! ## A dump and a later load -/

section
variable {x : Reg} {s t : State}

/-- An instruction that answers one state in range and a fault outside, and leaves the core running, was in range. -/
theorem inRange_of_running {P : Prop} {o : Host.Outcome State Fault Refusal} {f : Fault} {a : State}
    (hok : P → o = .next a) (hfault : ¬ P → o = .next (setStatus (.faulted f) s))
    (ho : o = .next t) (hrun : t.status = .running) : P ∧ t = a := by
  by_cases hP : P
  · cases ho.symm.trans (hok hP)
    exact ⟨hP, rfl⟩
  · cases ho.symm.trans (hfault hP)
    cases hrun

theorem exec_ldMemV_of_running (h : exec (.ldMemV x) s = .next t) (hrun : t.status = .running) :
    s.index.toNat + x.val < Config.memSize ∧ t = setPc (s.pc + 2#16) (storeAtIndex (firstRegs x s) s) :=
  inRange_of_running exec_ldMemV_inRange (fun hout => exec_ldMemV_outOfRange (Nat.not_lt.1 hout)) h hrun

theorem exec_ldVMem_of_running (h : exec (.ldVMem x) s = .next t) (hrun : t.status = .running) :
    s.index.toNat + x.val < Config.memSize ∧ t = setPc (s.pc + 2#16) (loadRegs x s) :=
  inRange_of_running exec_ldVMem_inRange (fun hout => exec_ldVMem_outOfRange (Nat.not_lt.1 hout)) h hrun
end

/-- Settles O51: neither faults, so the load reads from the dump's `index` the bytes that the dump stored there. -/
theorem loadAfterDumpRestoresTheRegisters : Obligations.LoadAfterDumpRestoresTheRegisters := by
  intro x s t u w hwf _ hdump htrun hindex hbytes hload hwrun r hr
  obtain ⟨hrange, rfl⟩ := exec_ldMemV_of_running hdump htrun
  obtain ⟨-, rfl⟩ := exec_ldVMem_of_running hload hwrun
  have hbase : u.index = s.index := hindex
  calc readV r (setPc (u.pc + 2#16) (loadRegs x u))
      = readByte u.mem (s.index.toNat + r.val) := by rw [readV_setPc, readV_loadRegs, if_pos hr, hbase]
    _ = readByte (storeAtIndex (firstRegs x s) s).mem (s.index.toNat + r.val) := hbytes r hr
    _ = readV r s := readByte_storeAtIndex_firstRegs hwf hrange hr

end Sys2Proof.Machine
end

section
/-! The timer instructions `Fx07`, `Fx15` and `Fx18` (R170 to R172). -/

namespace Sys2Proof.Machine

/-! ## The words of the rows -/

theorem encoded_ldVDt : Encoded 0xF0FF#16 0xF007#16 (fun w => .ldVDt (xField w)) :=
  encoded_groupF rfl fun w h => by rw [decodeGroupF, h]; rfl

theorem encoded_ldDtV : Encoded 0xF0FF#16 0xF015#16 (fun w => .ldDtV (xField w)) :=
  encoded_groupF rfl fun w h => by rw [decodeGroupF, h]; rfl

theorem encoded_ldStV : Encoded 0xF0FF#16 0xF018#16 (fun w => .ldStV (xField w)) :=
  encoded_groupF rfl fun w h => by rw [decodeGroupF, h]; rfl

/-! ## The frame of a timer write and the epilogue -/

section
variable {ps : List Part} {s : State}

theorem onlyChanges_setDt {b : Byte} (h : .delay ∈ ps) : OnlyChanges ps s (setDt b s) := by
  intro p hp
  cases p
  case delay => exact absurd h hp
  case regs | memory | screen => exact fun _ => rfl
  all_goals rfl

theorem onlyChanges_setSt {b : Byte} (h : .sound ∈ ps) : OnlyChanges ps s (setSt b s) := by
  intro p hp
  cases p
  case sound => exact absurd h hp
  case regs | memory | screen => exact fun _ => rfl
  all_goals rfl

theorem onlyChanges_setPc_setDt {a : Word} {b : Byte} : OnlyChanges [.pc, .delay] s (setPc a (setDt b s)) :=
  (onlyChanges_setDt (by simp)).trans (onlyChanges_setPc (by simp))

theorem onlyChanges_setPc_setSt {a : Word} {b : Byte} : OnlyChanges [.pc, .sound] s (setPc a (setSt b s)) :=
  (onlyChanges_setSt (by simp)).trans (onlyChanges_setPc (by simp))
end

/-! ## What each instruction answers -/

section
variable (x : Reg) (s : State)

theorem exec_ldVDt : exec (.ldVDt x) s = .next (setPc (s.pc + 2#16) (writeV x s.dt s)) := rfl

theorem exec_ldDtV : exec (.ldDtV x) s = .next (setPc (s.pc + 2#16) (setDt (readV x s) s)) := rfl

theorem exec_ldStV : exec (.ldStV x) s = .next (setPc (s.pc + 2#16) (setSt (readV x s) s)) := rfl
end

/-! ## LD_V_DT, LD_DT_V and LD_ST_V -/

/-- Settles O53: LD_V_DT writes the delay timer to the one register and leaves the timer as it is. -/
theorem ldVDtReadsTheDelayTimer : Obligations.LdVDtReadsTheDelayTimer :=
  ⟨encoded_ldVDt, fun x s => ⟨_, exec_ldVDt x s, rfl, fun r => readV_writeV x r s.dt s, onlyChanges_setPc_writeV⟩⟩

/-- Settles O54: LD_DT_V writes the register to the delay timer; the sound timer is in the frame. -/
theorem ldDtVSetsTheDelayTimer : Obligations.LdDtVSetsTheDelayTimer :=
  ⟨encoded_ldDtV, fun x s => ⟨_, exec_ldDtV x s, rfl, rfl, onlyChanges_setPc_setDt⟩⟩

/-- Settles O55: LD_ST_V writes the register to the sound timer; the delay timer is in the frame. -/
theorem ldStVSetsTheSoundTimer : Obligations.LdStVSetsTheSoundTimer :=
  ⟨encoded_ldStV, fun x s => ⟨_, exec_ldStV x s, rfl, rfl, onlyChanges_setPc_setSt⟩⟩

end Sys2Proof.Machine
end

section
/-! The words that are no instruction (R190). -/

namespace Sys2Proof

theorem decodeWord_of_unrecognizedWord {w : Word} (h : unrecognizedWord w = true) : decodeWord w = .unrecognized w := by
  obtain ⟨-, fallsBack, -⟩ := unrecognizedWordsAreThoseListed w
  exact fallsBack.2 h

end Sys2Proof

namespace Sys2Proof.Machine

theorem exec_unrecognized (w : Word) (s : State) : exec (.unrecognized w) s = .next (setPc (s.pc + 2#16) s) := rfl

/-- Settles O57: a listed word decodes to the fallback row, which runs the epilogue and nothing before it. -/
theorem unrecognizedWordsOnlyAdvance : Obligations.UnrecognizedWordsOnlyAdvance := by
  refine ⟨fun _ => decodeWord_of_unrecognizedWord, fun w s => ⟨_, exec_unrecognized w s, setPc_pc s _, ?frame⟩⟩
  case frame => exact onlyChanges_setPc (by simp)

end Sys2Proof.Machine
end

section
/-! The tick of the host, `tick_timers()` (R210). -/

namespace Sys2Proof.Machine

section
variable (s : State)

theorem tickTimers_dt_toNat : (tickTimers s).dt.toNat = s.dt.toNat - 1 := by
  rw [tickTimers_dt, countDown_toNat]

theorem tickTimers_st_toNat : (tickTimers s).st.toNat = s.st.toNat - 1 := by
  rw [tickTimers_st, countDown_toNat]

theorem onlyChanges_tickTimers : OnlyChanges [.delay, .sound] s (tickTimers s) :=
  (onlyChanges_setDt (by simp)).trans (onlyChanges_setSt (by simp))
end

/-- Settles O22: a tick counts each timer down on its own; the second tick counts down what the first left. -/
theorem tickDecrementsEachTimer : Obligations.TickDecrementsEachTimer := by
  intro s
  refine ⟨tickTimers_dt_toNat s, tickTimers_st_toNat s, onlyChanges_tickTimers s, ?delayTwice, ?soundTwice⟩
  case delayTwice => rw [tickTimers_dt_toNat, tickTimers_dt_toNat, Nat.sub_sub]
  case soundTwice => rw [tickTimers_st_toNat, tickTimers_st_toNat, Nat.sub_sub]

end Sys2Proof.Machine
end

section
/-! The instructions that ask the host: `Ex9E` and `ExA1` on a key, `Cxnn` and `Fx0A` (R134, R135, R153, R173). -/

namespace Sys2Proof.Machine

/-! ## The words of the rows -/

theorem encoded_rnd : Encoded 0xF000#16 0xC000#16 (fun w => .rnd (xField w) (nnField w)) :=
  encoded_op fun w h => by rw [decodeWord, h]; rfl

theorem decodeWord_of_groupE {w : Word} (h : opField w = 0xE) : decodeWord w = decodeGroupE w := by
  rw [decodeWord, h]; rfl

/-- In group E the low byte alone selects the row (R80). -/
theorem encoded_groupE {value : Word} {f : Word → Instr} (hop : opField value = 0xE)
    (h : ∀ w, nnField w = nnField value → decodeGroupE w = f w) : Encoded 0xF0FF#16 value f :=
  encoded_nn fun w hw hnn => (decodeWord_of_groupE (hw.trans hop)).trans (h w hnn)

theorem encoded_skp : Encoded 0xF0FF#16 0xE09E#16 (fun w => .skp (xField w)) :=
  encoded_groupE rfl fun w h => by rw [decodeGroupE, h]; rfl

theorem encoded_sknp : Encoded 0xF0FF#16 0xE0A1#16 (fun w => .sknp (xField w)) :=
  encoded_groupE rfl fun w h => by rw [decodeGroupE, h]; rfl

theorem encoded_ldVK : Encoded 0xF0FF#16 0xF00A#16 (fun w => .ldVK (xField w)) :=
  encoded_groupF rfl fun w h => by rw [decodeGroupF, h]; rfl

/-! ## The frame of a used answer -/

section
variable {ps : List Part} {s : State}

theorem onlyChanges_useAnswer (h : .answers ∈ ps) : OnlyChanges ps s (useAnswer s) := by
  intro p hp
  cases p
  case answers => exact absurd h hp
  case regs | memory | screen => exact fun _ => rfl
  all_goals rfl

theorem onlyChanges_takeKey {x : Reg} {answer : Option Key} (h : .regs ∈ ps) :
    OnlyChanges ps s (takeKey x answer s) := by
  cases answer
  case none => exact onlyChanges_setV (v := s.v) h
  case some => exact onlyChanges_writeV h

theorem onlyChanges_setPc_useAnswer {a : Word} : OnlyChanges [.pc, .answers] s (setPc a (useAnswer s)) :=
  (onlyChanges_useAnswer (by simp)).trans (onlyChanges_setPc (by simp))
end

/-! ## SKP and SKNP on a key -/

section
variable {x : Reg} {k : Key} {s : State} (h : (readV x s).toNat = k.val)
include h

theorem exec_skp_of_key : exec (.skp x) s = .next (setPc
    (if Config.isHeld s.hostAnswers k = true then s.pc + 4#16 else s.pc + 2#16) (useAnswer s)) := by
  rw [exec_skp, keySkip_key h, finish_skipIf]; rfl

theorem exec_sknp_of_key : exec (.sknp x) s = .next (setPc
    (if Config.isHeld s.hostAnswers k = true then s.pc + 2#16 else s.pc + 4#16) (useAnswer s)) := by
  rw [exec_sknp, keySkip_key h, finish_skipIf]
  cases Config.isHeld s.hostAnswers k <;> rfl
end

/-- Settles O34: with a key in range the answer for it decides the one write of the core, which is to `pc`. -/
theorem skipsOnTheKey : Obligations.SkipsOnTheKey :=
  ⟨encoded_skp, encoded_sknp,
    fun _ _ _ h => ⟨_, exec_skp_of_key h, rfl, rfl, onlyChanges_setPc_useAnswer⟩,
    fun _ _ _ h => ⟨_, exec_sknp_of_key h, rfl, rfl, onlyChanges_setPc_useAnswer⟩⟩

/-! ## RND -/

theorem exec_rnd (x : Reg) (nn : Byte) (s : State) : exec (.rnd x nn) s =
    .next (setPc (s.pc + 2#16) (writeV x (Config.randomByte s.hostAnswers &&& nn) (useAnswer s))) := rfl

/-- Settles O44: RND writes the masked byte to the one register and uses one answer. -/
theorem rndMasksTheHostsByte : Obligations.RndMasksTheHostsByte := by
  refine ⟨encoded_rnd, fun x nn s =>
    ⟨_, exec_rnd x nn s, rfl, fun r => readV_writeV x r _ (useAnswer s), fun k hk => ?masked, rfl, ?frame⟩⟩
  case masked => rw [readV_setPc, readV_writeV, if_pos rfl, BitVec.getLsbD_and, hk, Bool.and_false]
  case frame =>
    exact ((onlyChanges_useAnswer (by simp)).trans (onlyChanges_writeV (by simp))).trans (onlyChanges_setPc (by simp))

/-! ## LD_V_K -/

theorem exec_ldVK (x : Reg) (s : State) : exec (.ldVK x) s =
    finish (Config.poll s.hostAnswers).isNone (takeKey x (Config.poll s.hostAnswers) (useAnswer s)) := rfl

theorem exec_ldVK_of_none {x : Reg} {s : State} (h : Config.poll s.hostAnswers = none) :
    exec (.ldVK x) s = .next (useAnswer s) := by
  rw [exec_ldVK, h]; rfl

theorem exec_ldVK_of_some {x : Reg} {s : State} {k : Key} (h : Config.poll s.hostAnswers = some k) :
    exec (.ldVK x) s = .next (setPc (s.pc + 2#16) (writeV x (keyByte k) (useAnswer s))) := by
  rw [exec_ldVK, h]; rfl

theorem keyByte_toNat (k : Key) : (keyByte k).toNat = k.val := by
  have hk := k.isLt
  rw [keyByte, BitVec.toNat_ofNat, Nat.mod_eq_of_lt (by omega)]

/-- Settles O56: no key is a stall that uses the answer alone; a key goes to the one register. -/
theorem ldVKStallsUntilAKey : Obligations.LdVKStallsUntilAKey := by
  refine ⟨encoded_ldVK, fun x s => ?effect⟩
  case effect =>
    cases h : Config.poll s.hostAnswers with
    | none => exact ⟨_, exec_ldVK_of_none h, rfl, onlyChanges_useAnswer (by simp)⟩
    | some k =>
      refine ⟨_, exec_ldVK_of_some h, rfl, rfl, ?key, fun r hr => ?others, ?frame⟩
      case key => rw [readV_setPc, readV_writeV, if_pos rfl, keyByte_toNat]
      case others => rw [readV_setPc, readV_writeV, if_neg hr, readV_useAnswer]
      case frame =>
        exact ((onlyChanges_useAnswer (by simp)).trans (onlyChanges_writeV (by simp))).trans
          (onlyChanges_setPc (by simp))

end Sys2Proof.Machine
end

section
/-! The decoder and the encoder undo one another (R71, R79, R83, R84). -/

namespace Sys2Proof

/-! ## Decoding an encoded instruction -/

/-- A register's or a count's four bits name it. -/
@[simp] theorem nibble_toFin (x : Fin 16) : (nibble x).toFin = x := rfl

theorem decodeWord_encode {i : Instr} (h : i.wellFormed = true) : decodeWord (encode i) = i := by
  cases i
  case unrecognized => exact decodeWord_of_unrecognizedWord h
  case cls | ret => rfl
  case ldR | or | and | xor | addR | sub | shr | subn | shl => simp [encode, decodeWord, decodeGroup8]
  case skp | sknp => simp [encode, decodeWord, decodeGroupE]
  case ldVDt | ldVK | ldDtV | ldStV | addIdxV | ldFV | ldBV | ldMemV | ldVMem =>
    simp [encode, decodeWord, decodeGroupF]
  all_goals simp [encode, decodeWord]

/-- Settles O1: the fields that the encoder writes are those on which the decoder dispatches and which it hands over. -/
theorem decodeOfEncodeIsTheInstruction : Obligations.DecodeOfEncodeIsTheInstruction := by
  intro i h
  refine ⟨decodeWord_encode h, fun rest => ?_⟩
  rw [encodeBytes, decode_wordBytes, decodeWord_encode h]

/-! ## Encoding a decoded word -/

section
variable {op : BitVec 4} {w : Word}

theorem nibble_xField : nibble (xField w) = w.extractLsb' 8 4 := rfl

theorem nibble_yField : nibble (yField w) = w.extractLsb' 4 4 := rfl

/-- A field given by its number is that number bit by bit. -/
theorem extractLsb'_eq_of_val {start : Nat} (h : (w.extractLsb' start 4).toFin.val = op.toNat) :
    op = w.extractLsb' start 4 :=
  BitVec.eq_of_toNat_eq h.symm

theorem encodeA_fields (h : (opField w).val = op.toNat) : encodeA op (nnnField w) = w := by
  rw [extractLsb'_eq_of_val h]
  refine BitVec.eq_of_getLsbD_eq fun i hi => ?_
  rw [encodeA_bit]
  interval_cases i <;> simp [nnnField]

theorem encodeXNN_fields {nn : Byte} (h : (opField w).val = op.toNat) (hnn : (nnField w).toNat = nn.toNat) :
    encodeXNN op (xField w) nn = w := by
  rw [extractLsb'_eq_of_val h, ← BitVec.eq_of_toNat_eq hnn]
  refine BitVec.eq_of_getLsbD_eq fun i hi => ?_
  rw [encodeXNN_bit]
  interval_cases i <;> simp [nibble_xField, nnField]

theorem encodeXYN_fields {n : BitVec 4} (h : (opField w).val = op.toNat) (hn : (nField w).val = n.toNat) :
    encodeXYN op (xField w) (yField w) n = w := by
  rw [extractLsb'_eq_of_val h, extractLsb'_eq_of_val hn]
  refine BitVec.eq_of_getLsbD_eq fun i hi => ?_
  rw [encodeXYN_bit]
  interval_cases i <;> simp [nibble_xField, nibble_yField]


/-- The assembler's 0 in the low nibble (R84). -/
theorem encodeXYN_zero_fields (h : (opField w).val = op.toNat) :
    encodeXYN op (xField w) (yField w) 0x0#4 = w &&& 0xFFF0#16 := by
  have clear : ∀ x y n, encodeXYN op x y n &&& 0xFFF0#16 = encodeXYN op x y 0x0#4 := by
    intro x y n
    refine BitVec.eq_of_getLsbD_eq fun i hi => ?_
    rw [BitVec.getLsbD_and, encodeXYN_bit, encodeXYN_bit]
    interval_cases i <;> simp
  rw [← clear _ _ (nibble (nField w)), encodeXYN_fields (n := nibble (nField w)) h rfl]

theorem encode_decodeGroup8 (h : (opField w).val = 0x8) : encode (decodeGroup8 w) = w := by
  unfold decodeGroup8
  split
  case h_10 => rfl
  all_goals next hn => exact encodeXYN_fields h hn

theorem encode_decodeGroupE (h : (opField w).val = 0xE) : encode (decodeGroupE w) = w := by
  unfold decodeGroupE
  split
  case h_3 => rfl
  all_goals next hnn => exact encodeXNN_fields h hnn

theorem encode_decodeGroupF (h : (opField w).val = 0xF) : encode (decodeGroupF w) = w := by
  unfold decodeGroupF
  split
  case h_10 => rfl
  all_goals next hnn => exact encodeXNN_fields h hnn

theorem encode_decodeGroup0 : encode (decodeGroup0 w) = w := by
  unfold decodeGroup0
  split
  · next hcls => exact hcls.symm
  · split
    · next hret => exact hret.symm
    · rfl
end

/-- In groups 5 and 9 the low nibble is the one part of the word that the decoder does not hand over (R80). -/
theorem encode_decodeWord_of_comparing {w : Word} (h : opField w = 0x5 ∨ opField w = 0x9) :
    encode (decodeWord w) = w &&& 0xFFF0#16 := by
  obtain h | h := h
  all_goals
    rw [decodeWord, h]
    exact encodeXYN_zero_fields (congrArg Fin.val h)

theorem encode_decodeWord_of_not_comparing {w : Word} (h : ¬ (opField w = 0x5 ∨ opField w = 0x9)) :
    encode (decodeWord w) = w := by
  have hop := (opField w).isLt
  unfold decodeWord
  split
  case h_1 => exact encode_decodeGroup0
  case h_6 h5 => exact absurd (.inl (Fin.ext h5)) h
  case h_9 h8 => exact encode_decodeGroup8 h8
  case h_10 h9 => exact absurd (.inr (Fin.ext h9)) h
  case h_14 hD => exact encodeXYN_fields hD rfl
  case h_15 hE => exact encode_decodeGroupE hE
  case h_16 =>
    simp only [imp_false] at *
    exact encode_decodeGroupF (by omega)
  case h_2 hA | h_3 hA | h_11 hA => exact encodeA_fields hA
  all_goals next hXNN => exact encodeXNN_fields hXNN rfl

/-- Settles O2: the decoder hands over every field of the word but the low nibble of groups 5 and 9. -/
theorem encodeOfDecodeIsTheWord : Obligations.EncodeOfDecodeIsTheWord := by
  intro w
  split
  · next h => exact encode_decodeWord_of_comparing h
  · next h => exact encode_decodeWord_of_not_comparing h

/-! ## Rows and words -/

theorem encoded_cls : Encoded 0xFFFF#16 0x00E0#16 (fun _ => .cls) := encoded_whole rfl

theorem encoded_ret : Encoded 0xFFFF#16 0x00EE#16 (fun _ => .ret) := encoded_whole rfl

/-- A well-formed instruction's word has the fixed bits of its row (R83). -/
theorem encode_row {i : Instr} (h : i.wellFormed = true) : encode i &&& i.row.1 = i.row.2 :=
  match i with
  | .cls => Laws.RowBits.cls h
  | .ret => Laws.RowBits.ret h
  | .jp nnn => Laws.RowBits.jp nnn h
  | .call nnn => Laws.RowBits.call nnn h
  | .seI x nn => Laws.RowBits.seI x nn h
  | .sneI x nn => Laws.RowBits.sneI x nn h
  | .seR x y => Laws.RowBits.seR x y h
  | .ldI x nn => Laws.RowBits.ldI x nn h
  | .addI x nn => Laws.RowBits.addI x nn h
  | .ldR x y => Laws.RowBits.ldR x y h
  | .or x y => Laws.RowBits.or x y h
  | .and x y => Laws.RowBits.and x y h
  | .xor x y => Laws.RowBits.xor x y h
  | .addR x y => Laws.RowBits.addR x y h
  | .sub x y => Laws.RowBits.sub x y h
  | .shr x y => Laws.RowBits.shr x y h
  | .subn x y => Laws.RowBits.subn x y h
  | .shl x y => Laws.RowBits.shl x y h
  | .sneR x y => Laws.RowBits.sneR x y h
  | .ldIdx nnn => Laws.RowBits.ldIdx nnn h
  | .jpOfs x nn => Laws.RowBits.jpOfs x nn h
  | .rnd x nn => Laws.RowBits.rnd x nn h
  | .drw x y n => Laws.RowBits.drw x y n h
  | .skp x => Laws.RowBits.skp x h
  | .sknp x => Laws.RowBits.sknp x h
  | .ldVDt x => Laws.RowBits.ldVDt x h
  | .ldVK x => Laws.RowBits.ldVK x h
  | .ldDtV x => Laws.RowBits.ldDtV x h
  | .ldStV x => Laws.RowBits.ldStV x h
  | .addIdxV x => Laws.RowBits.addIdxV x h
  | .ldFV x => Laws.RowBits.ldFV x h
  | .ldBV x => Laws.RowBits.ldBV x h
  | .ldMemV x => Laws.RowBits.ldMemV x h
  | .ldVMem x => Laws.RowBits.ldVMem x h
  | .unrecognized w => Laws.RowBits.unrecognized w h

theorem row_decodeWord_of_encoded {w : Word} {i : Instr} {f : Word → Instr} (henc : Encoded i.row.1 i.row.2 f)
    (hf : (f w).row = i.row) (h : w &&& i.row.1 = i.row.2) : (decodeWord w).row = i.row :=
  (congrArg Instr.row (henc w h)).trans hf

/-- A word with the fixed bits of a row decodes to that row (R83). -/
theorem row_decodeWord {w : Word} {i : Instr} (hi : i.isUnrecognized = false) (h : w &&& i.row.1 = i.row.2) :
    (decodeWord w).row = i.row :=
  match i with
  | .cls => row_decodeWord_of_encoded encoded_cls rfl h
  | .ret => row_decodeWord_of_encoded encoded_ret rfl h
  | .jp _ => row_decodeWord_of_encoded Machine.encoded_jp rfl h
  | .call _ => row_decodeWord_of_encoded Machine.encoded_call rfl h
  | .seI _ _ => row_decodeWord_of_encoded Machine.encoded_seI rfl h
  | .sneI _ _ => row_decodeWord_of_encoded Machine.encoded_sneI rfl h
  | .seR _ _ => row_decodeWord_of_encoded Machine.encoded_seR rfl h
  | .ldI _ _ => row_decodeWord_of_encoded Machine.encoded_ldI rfl h
  | .addI _ _ => row_decodeWord_of_encoded Machine.encoded_addI rfl h
  | .ldR _ _ => row_decodeWord_of_encoded Machine.encoded_ldR rfl h
  | .or _ _ => row_decodeWord_of_encoded Machine.encoded_or rfl h
  | .and _ _ => row_decodeWord_of_encoded Machine.encoded_and rfl h
  | .xor _ _ => row_decodeWord_of_encoded Machine.encoded_xor rfl h
  | .addR _ _ => row_decodeWord_of_encoded Machine.encoded_addR rfl h
  | .sub _ _ => row_decodeWord_of_encoded Machine.encoded_sub rfl h
  | .shr _ _ => row_decodeWord_of_encoded Machine.encoded_shr rfl h
  | .subn _ _ => row_decodeWord_of_encoded Machine.encoded_subn rfl h
  | .shl _ _ => row_decodeWord_of_encoded Machine.encoded_shl rfl h
  | .sneR _ _ => row_decodeWord_of_encoded Machine.encoded_sneR rfl h
  | .ldIdx _ => row_decodeWord_of_encoded Machine.encoded_ldIdx rfl h
  | .jpOfs _ _ => row_decodeWord_of_encoded Machine.encoded_jpOfs rfl h
  | .rnd _ _ => row_decodeWord_of_encoded Machine.encoded_rnd rfl h
  | .drw _ _ _ => row_decodeWord_of_encoded Machine.encoded_drw rfl h
  | .skp _ => row_decodeWord_of_encoded Machine.encoded_skp rfl h
  | .sknp _ => row_decodeWord_of_encoded Machine.encoded_sknp rfl h
  | .ldVDt _ => row_decodeWord_of_encoded Machine.encoded_ldVDt rfl h
  | .ldVK _ => row_decodeWord_of_encoded Machine.encoded_ldVK rfl h
  | .ldDtV _ => row_decodeWord_of_encoded Machine.encoded_ldDtV rfl h
  | .ldStV _ => row_decodeWord_of_encoded Machine.encoded_ldStV rfl h
  | .addIdxV _ => row_decodeWord_of_encoded Machine.encoded_addIdxV rfl h
  | .ldFV _ => row_decodeWord_of_encoded Machine.encoded_ldFV rfl h
  | .ldBV _ => row_decodeWord_of_encoded Machine.encoded_ldBV rfl h
  | .ldMemV _ => row_decodeWord_of_encoded Machine.encoded_ldMemV rfl h
  | .ldVMem _ => row_decodeWord_of_encoded Machine.encoded_ldVMem rfl h

theorem row_mask_of_comparing {w : Word} (h : opField w = 0x5 ∨ opField w = 0x9) :
    (decodeWord w).row.1 = 0xF000#16 := by
  obtain h | h := h
  all_goals rw [decodeWord, h]; rfl

/-- A word has the fixed bits of the row that it decodes to. -/
theorem decodeWord_row (w : Word) : w &&& (decodeWord w).row.1 = (decodeWord w).row.2 := by
  obtain ⟨hwf, -⟩ := unrecognizedWordsAreThoseListed w
  have hrow := encode_row hwf
  by_cases h : opField w = 0x5 ∨ opField w = 0x9
  · rw [encode_decodeWord_of_comparing h, BitVec.and_assoc, row_mask_of_comparing h] at hrow
    rw [← hrow, row_mask_of_comparing h]; rfl
  · rwa [encode_decodeWord_of_not_comparing h] at hrow

/-- Settles O4: a word with a row's bits decodes to that row, and has the bits of the row it decodes to. -/
theorem opcodeMapSelectsTheRow : Obligations.OpcodeMapSelectsTheRow := by
  refine ⟨fun w i hi => ⟨row_decodeWord hi, fun h => h ▸ decodeWord_row w⟩, fun w hnone => ?fallback⟩
  case fallback =>
    obtain ⟨-, hdecode⟩ | ⟨-, hother⟩ := decodeWord_fallsBackIfListed w
    · exact hdecode
    · exact absurd (decodeWord_row w) (hnone _ hother)

/-! ## Fields and single words -/

/-- Settles O5: each field is a quotient and a remainder of the word by powers of 2. -/
theorem fieldsOfAWord : Obligations.FieldsOfAWord := by
  intro w
  have hw := w.isLt
  have field : ∀ start len, (w.extractLsb' start len).toNat = w.toNat / 2 ^ start % 2 ^ len := fun start len => by
    rw [BitVec.extractLsb'_toNat, Nat.shiftRight_eq_div_pow]
  have hop : (opField w).val = _ := field 12 4
  have hx : (xField w).val = _ := field 8 4
  have hy : (yField w).val = _ := field 4 4
  have hn : (nField w).val = _ := field 0 4
  have hnn : (nnField w).toNat = _ := field 0 8
  have hnnn : (nnnField w).toNat = _ := field 0 12
  omega

/-- Settles O6: the decoder computes each of the fifteen words. -/
theorem wordsOfTheDecoderTable : Obligations.WordsOfTheDecoderTable :=
  ⟨rfl, rfl, rfl, rfl, rfl, rfl, rfl, rfl, rfl, rfl, rfl, rfl, rfl, rfl, rfl⟩

end Sys2Proof
end

section
/-! What every instruction answers, said once: the fault of the table, or its effect and the next `pc` (R74 to R78, R200). -/

namespace Sys2Proof
open Sys2Proof.Machine

/-- Where `pc` goes if the instruction does not fault (R36, R76 to R78). -/
def Instr.nextPc (i : Instr) (s : State) : Word :=
  match i with
  | .jp nnn | .call nnn => zextAddr nnn
  | .jpOfs x nn => zextByte nn + zextByte (readV x s)
  | .ret => s.stack.getLast?.getD 0#16 + 2#16
  | .seI x nn => if readV x s = nn then s.pc + 4#16 else s.pc + 2#16
  | .sneI x nn => if readV x s = nn then s.pc + 2#16 else s.pc + 4#16
  | .seR x y => if readV x s = readV y s then s.pc + 4#16 else s.pc + 2#16
  | .sneR x y => if readV x s = readV y s then s.pc + 2#16 else s.pc + 4#16
  | .skp x => if (keyOf (readV x s)).any (Config.isHeld s.hostAnswers) then s.pc + 4#16 else s.pc + 2#16
  | .sknp x => if (keyOf (readV x s)).any (Config.isHeld s.hostAnswers) then s.pc + 2#16 else s.pc + 4#16
  | .ldVK _ => if (Config.poll s.hostAnswers).isNone then s.pc else s.pc + 2#16
  | _ => s.pc + 2#16

/-- What the instruction does to the other parts of the state if it does not fault. -/
def Instr.effect (i : Instr) (s : State) : State :=
  match i with
  | .cls => setFb clearGrid s
  | .ret => setStack s.stack.dropLast s
  | .call _ => push s.pc s
  | .ldI x nn => writeV x nn s
  | .addI x nn => writeV x (readV x s + nn) s
  | .ldR x y => writeV x (readV y s) s
  | .or x y => writeV x (readV x s ||| readV y s) s
  | .and x y => writeV x (readV x s &&& readV y s) s
  | .xor x y => writeV x (readV x s ^^^ readV y s) s
  | .addR x y => writeThenFlag x (addWithCarry (readV x s) (readV y s)) s
  | .sub x y => writeThenFlag x (subWithBorrow (readV x s) (readV y s)) s
  | .shr x _ => shiftV Config.shiftFlagLast shrFlag shrResult x s
  | .subn x y => writeThenFlag x (subWithBorrow (readV y s) (readV x s)) s
  | .shl x _ => shiftV Config.shiftFlagLast shlFlag shlResult x s
  | .ldIdx nnn => setIndex (zextAddr nnn) s
  | .rnd x nn => writeV x (Config.randomByte s.hostAnswers &&& nn) (useAnswer s)
  | .drw x y n => drawSprite (readV x s).toNat (readV y s).toNat (spriteRows n s) s
  | .skp _ | .sknp _ => useAnswer s
  | .ldVDt x => writeV x s.dt s
  | .ldVK x => takeKey x (Config.poll s.hostAnswers) (useAnswer s)
  | .ldDtV x => setDt (readV x s) s
  | .ldStV x => setSt (readV x s) s
  | .addIdxV x => setIndex (s.index + zextByte (readV x s)) s
  | .ldFV x => setIndex (glyphAddr (readV x s)) s
  | .ldBV x => storeAtIndex (decimalDigits (readV x s)) s
  | .ldMemV x => storeAtIndex (firstRegs x s) s
  | .ldVMem x => loadRegs x s
  | .jp _ | .jpOfs _ _ | .seI _ _ | .sneI _ _ | .seR _ _ | .sneR _ _ | .unrecognized _ => s

/-- The answer of an instruction: its fault of the table, recorded, or its effect with the next `pc`. -/
def Instr.AnswersByTable (i : Instr) (s : State) : Prop :=
  (∃ f, i.faultOf s = some f ∧ exec i s = .next (setStatus (.faulted f) s)) ∨
    (i.faultOf s = none ∧ exec i s = .next (setPc (i.nextPc s) (i.effect s)))

end Sys2Proof

namespace Sys2Proof.Machine

/-! ## Every instruction answers by the table -/

section
variable {i : Instr} {s t : State} {f : Fault}

theorem answersByTable_of_ite {P : Prop} [Decidable P] (hf : i.faultOf s = if P then some f else none)
    (hfault : P → exec i s = .next (setStatus (.faulted f) s))
    (hok : ¬ P → exec i s = .next (setPc (i.nextPc s) (i.effect s))) : i.AnswersByTable s := by
  by_cases hP : P
  · exact .inl ⟨f, hf.trans (if_pos hP), hfault hP⟩
  · exact .inr ⟨hf.trans (if_neg hP), hok hP⟩

theorem answersByTable_ret : Instr.AnswersByTable .ret s := by
  refine answersByTable_of_ite rfl exec_ret_of_empty fun h => ?_
  have hsplit := List.dropLast_append_getLast h
  have hlast : s.stack.getLast? = some (s.stack.getLast h) := List.getLast?_eq_some_getLast h
  rw [exec_ret_of_append hsplit.symm, Instr.nextPc, hlast]; rfl

/-- A register value that is not above `0xF` is a key (R136). -/
theorem exists_key {x : Reg} (h : ¬ 0xF < (readV x s).toNat) : ∃ k : Key, (readV x s).toNat = k.val :=
  ⟨⟨(readV x s).toNat, by omega⟩, rfl⟩

theorem answersByTable_skp {x : Reg} : Instr.AnswersByTable (.skp x) s := by
  refine answersByTable_of_ite rfl (fun h => (exec_skp x s).trans (keySkip_outOfRange h)) fun h => ?_
  obtain ⟨k, hk⟩ := exists_key h
  rw [exec_skp_of_key hk, Instr.nextPc, keyOf_some.2 hk]; rfl

theorem answersByTable_sknp {x : Reg} : Instr.AnswersByTable (.sknp x) s := by
  refine answersByTable_of_ite rfl (fun h => (exec_sknp x s).trans (keySkip_outOfRange h)) fun h => ?_
  obtain ⟨k, hk⟩ := exists_key h
  rw [exec_sknp_of_key hk, Instr.nextPc, keyOf_some.2 hk]; rfl

theorem answersByTable_ldVK {x : Reg} : Instr.AnswersByTable (.ldVK x) s := by
  refine .inr ⟨rfl, ?_⟩
  unfold Instr.nextPc Instr.effect
  cases h : Config.poll s.hostAnswers with
  | none => exact exec_ldVK_of_none h
  | some k => exact exec_ldVK_of_some h

theorem answersByTable (i : Instr) (s : State) : i.AnswersByTable s := by
  cases i
  case ret => exact answersByTable_ret
  case seI x nn => exact .inr ⟨rfl, exec_seI x nn s⟩
  case sneI x nn => exact .inr ⟨rfl, exec_sneI x nn s⟩
  case seR x y => exact .inr ⟨rfl, exec_seR x y s⟩
  case sneR x y => exact .inr ⟨rfl, exec_sneR x y s⟩
  case shr | shl => exact .inr ⟨rfl, finish_shiftV ..⟩
  case drw => exact answersByTable_of_ite rfl exec_drw_outOfRange fun h => exec_drw_inRange (by omega)
  case skp => exact answersByTable_skp
  case sknp => exact answersByTable_sknp
  case ldVK => exact answersByTable_ldVK
  case ldBV =>
    exact answersByTable_of_ite rfl (fun h => exec_ldBV_outOfRange (by omega)) fun h => exec_ldBV_inRange (by omega)
  case ldMemV =>
    exact answersByTable_of_ite rfl (fun h => exec_ldMemV_outOfRange (by omega)) fun h => exec_ldMemV_inRange (by omega)
  case ldVMem =>
    exact answersByTable_of_ite rfl (fun h => exec_ldVMem_outOfRange (by omega)) fun h => exec_ldVMem_inRange (by omega)
  all_goals exact .inr ⟨rfl, rfl⟩

theorem exec_of_fault (h : i.faultOf s = some f) : exec i s = .next (setStatus (.faulted f) s) := by
  obtain ⟨g, hg, hexec⟩ | ⟨hnone, -⟩ := answersByTable i s
  · cases h.symm.trans hg; exact hexec
  · cases h.symm.trans hnone

theorem exec_of_noFault (h : i.faultOf s = none) : exec i s = .next (setPc (i.nextPc s) (i.effect s)) := by
  obtain ⟨g, hg, -⟩ | ⟨-, hexec⟩ := answersByTable i s
  · cases h.symm.trans hg
  · exact hexec

/-- What a next state of an instruction can be. -/
theorem exec_cases (h : exec i s = .next t) :
    (∃ f, i.faultOf s = some f ∧ t = setStatus (.faulted f) s) ∨
      (i.faultOf s = none ∧ t = setPc (i.nextPc s) (i.effect s)) := by
  obtain ⟨f, hf, hexec⟩ | ⟨hnone, hexec⟩ := answersByTable i s
  · cases h.symm.trans hexec; exact .inl ⟨f, hf, rfl⟩
  · cases h.symm.trans hexec; exact .inr ⟨hnone, rfl⟩
end

/-! ## The frame of the effect -/

section
variable {i : Instr} {s t : State} {f : Fault} {r : Reg}

theorem OnlyChanges.mono {ps qs : List Part} (h : OnlyChanges ps s t) (hsub : ps ⊆ qs) : OnlyChanges qs s t :=
  fun p hp => h p fun hmem => hp (hsub hmem)

theorem onlyChanges_setStatus {ps : List Part} {x : Status} (h : .status ∈ ps) : OnlyChanges ps s (setStatus x s) := by
  intro p hp
  cases p
  case status => exact absurd h hp
  case regs | memory | screen => exact fun _ => rfl
  all_goals rfl

theorem onlyChanges_refl {ps : List Part} : OnlyChanges ps s s := by
  intro p _
  cases p
  case regs | memory | screen => exact fun _ => rfl
  all_goals rfl

theorem onlyChanges_shiftV {ps : List Part} {flagLast : Bool} {flag shift : Byte → Byte} {x : Reg} (h : .regs ∈ ps) :
    OnlyChanges ps s (shiftV flagLast flag shift x s) := by
  obtain ⟨v, hv⟩ := shiftV_setV s flagLast flag shift x
  rw [hv]
  exact onlyChanges_setV h

theorem pc_mem_parts (i : Instr) : Part.pc ∈ i.parts := by
  cases i
  all_goals exact List.mem_cons_self

theorem onlyChanges_effect (i : Instr) (s : State) : OnlyChanges i.parts s (i.effect s) := by
  cases i
  case cls => exact onlyChanges_setFb (by simp [Instr.parts])
  case ret => exact onlyChanges_setStack (by simp [Instr.parts])
  case call => exact onlyChanges_push (by simp [Instr.parts])
  case ldI | addI | ldR | or | and | xor | ldVDt => exact onlyChanges_writeV (by simp [Instr.parts])
  case addR | sub | subn | ldVMem => exact onlyChanges_setV (by simp [Instr.parts])
  case shr | shl => exact onlyChanges_shiftV (by simp [Instr.parts])
  case ldIdx | addIdxV | ldFV => exact onlyChanges_setIndex (by simp [Instr.parts])
  case rnd =>
    exact (onlyChanges_useAnswer (by simp [Instr.parts])).trans (onlyChanges_writeV (by simp [Instr.parts]))
  case ldVK =>
    exact (onlyChanges_useAnswer (by simp [Instr.parts])).trans (onlyChanges_takeKey (by simp [Instr.parts]))
  case drw =>
    exact onlyChanges_drawSprite _ _ _ s (by simp [Instr.parts]) (by simp [Instr.parts]) (by simp [Instr.parts])
  case skp | sknp => exact onlyChanges_useAnswer (by simp [Instr.parts])
  case ldDtV => exact onlyChanges_setDt (by simp [Instr.parts])
  case ldStV => exact onlyChanges_setSt (by simp [Instr.parts])
  case ldBV | ldMemV => exact onlyChanges_setMem (by simp [Instr.parts])
  all_goals exact onlyChanges_refl

theorem effect_status (i : Instr) (s : State) : (i.effect s).status = s.status := by
  refine onlyChanges_effect i s .status ?_
  cases i
  all_goals simp [Instr.parts]

/-! ## Faults -/

/-- Settles O9: an instruction answers by the table of R200, and an effect leaves the status alone. -/
theorem faultsAreExactlyThoseOfTheTable : Obligations.FaultsAreExactlyThoseOfTheTable :=
  fun i s hrun => ⟨fun _ => exec_of_fault, fun h => ⟨_, exec_of_noFault h, (effect_status i s).trans hrun⟩⟩

/-- A fault of the table fits the state that raises it. -/
theorem recorded_of_faultOf (h : i.faultOf s = some f) : f.Recorded s := by
  unfold Instr.faultOf at h
  split at h
  case h_1 =>
    split at h
    · next hempty => cases h; exact ⟨hempty, rfl⟩
    · cases h
  case h_2 | h_3 =>
    split at h
    · next hkey => cases h; exact ⟨hkey, ⟨_, rfl⟩, rfl⟩
    · cases h
  case h_4 =>
    split at h
    · cases h
    · split at h
      · cases h; exact ⟨Nat.le_max_right _ _, rfl⟩
      · cases h

/-! ## What a step can do -/

/-- A next state of `coreStep` is the state with a fault recorded, or the effect of an instruction fetched in range. -/
theorem coreStep_cases (h : coreStep s = .next t) :
    (∃ f : Fault, f.Recorded s ∧ t = setStatus (.faulted f) s) ∨
      (∃ i : Instr, s.pc.toNat ≤ 0xFFE ∧ i.faultOf s = none ∧ t = setPc (i.nextPc s) (i.effect s)) := by
  by_cases hfetch : s.pc.toNat + 1 < Config.memSize
  · rw [coreStep_of_fetch_inRange hfetch] at h
    obtain ⟨f, hf, ht⟩ | ⟨hnone, ht⟩ := exec_cases h
    · exact .inl ⟨f, recorded_of_faultOf hf, ht⟩
    · exact .inr ⟨_, Nat.le_of_lt_succ (Nat.lt_of_succ_lt_succ hfetch), hnone, ht⟩
  · rw [coreStep_of_fetch_outOfRange (Nat.not_lt.1 hfetch)] at h
    cases h
    refine .inl ⟨_, ?recorded, rfl⟩
    case recorded => exact ⟨Nat.le_max_right _ _, rfl⟩

theorem step_of_running (h : s.status = .running) : step s = coreStep (hostTurn s) := by
  rw [step, h]

theorem step_of_faulted (h : s.status = .faulted f) : step s = .fault f := by
  rw [step, h]

/-- A step that answers a next state is one of a running core. -/
theorem running_of_step (h : step s = .next t) : s.status = .running ∧ coreStep (hostTurn s) = .next t := by
  cases hs : s.status with
  | running => exact ⟨rfl, step_of_running hs ▸ h⟩
  | faulted f => cases (step_of_faulted hs).symm.trans h

/-- Settles O10: an effect leaves a running core running, so the state is the one with the fault recorded. -/
theorem faultChangesOnlyStatus : Obligations.FaultChangesOnlyStatus := by
  refine ⟨fun s t f hrun hstep hf => ?_, fun _ _ => step_of_faulted⟩
  obtain ⟨g, -, rfl⟩ | ⟨i, -, -, rfl⟩ := coreStep_cases hstep
  · cases hf; rfl
  · rw [setPc_status, effect_status, hrun] at hf
    cases hf

/-! ## The parts that an instruction changes -/

/-- Settles O11: the effect changes the instruction's own parts, and `pc` is one of them. -/
theorem everyInstructionChangesOnlyItsParts : Obligations.EveryInstructionChangesOnlyItsParts := by
  intro i s t h
  obtain ⟨f, -, rfl⟩ | ⟨-, rfl⟩ := exec_cases h
  · exact onlyChanges_setStatus List.mem_cons_self
  · exact ((onlyChanges_effect i s).trans (onlyChanges_setPc (pc_mem_parts i))).mono (List.subset_cons_self _ _)

/-! ## Written registers and stored bytes -/

theorem readV_effect_of_not_written (h : i.writesReg r = false) : readV r (i.effect s) = readV r s := by
  cases i
  case ldI | addI | ldR | or | and | xor | rnd | ldVDt =>
    exact (readV_writeV ..).trans (if_neg (beq_eq_false_iff_ne.1 h))
  case ldVK => exact (readV_takeKey ..).trans (if_neg (beq_eq_false_iff_ne.1 h))
  case addR | sub | subn =>
    obtain ⟨hx, hVF⟩ := Bool.or_eq_false_iff.1 h
    exact (readV_writeThenFlag ..).trans
      ((if_neg (beq_eq_false_iff_ne.1 hVF)).trans (if_neg (beq_eq_false_iff_ne.1 hx)))
  case shr | shl =>
    obtain ⟨hx, hVF⟩ := Bool.or_eq_false_iff.1 h
    exact (readV_shiftV_flagFirst ..).trans
      ((if_neg (beq_eq_false_iff_ne.1 hVF)).trans (if_neg (beq_eq_false_iff_ne.1 hx)))
  case drw => exact readV_drawSprite_other _ _ _ s (beq_eq_false_iff_ne.1 h)
  case ldVMem => exact readV_loadRegs.trans (if_neg (of_decide_eq_false h))
  all_goals rfl

/-- Settles O12: the effect writes the registers of the table alone, and neither a fault nor `pc` is a register. -/
theorem onlyDestinationRegistersChange : Obligations.OnlyDestinationRegistersChange := by
  intro i s t r h hwrites
  obtain ⟨f, -, rfl⟩ | ⟨-, rfl⟩ := exec_cases h
  · rfl
  · exact readV_effect_of_not_written hwrites

theorem readByte_effect_of_not_stored {a : Nat} (h : a ∉ i.stores s) :
    readByte (i.effect s).mem a = readByte s.mem a := by
  cases i
  case ldBV x => exact readByte_storeAtIndex_other (decimalDigits_length _) h
  case ldMemV x => exact readByte_storeAtIndex_other (firstRegs_length x s) h
  all_goals exact onlyChanges_effect _ s .memory (by simp [Instr.parts]) a

/-- Settles O15: only the two storing instructions change memory, and only at the addresses of their store lists. -/
theorem onlyStoredBytesChange : Obligations.OnlyStoredBytesChange := by
  intro i s t h a ha
  obtain ⟨f, -, rfl⟩ | ⟨-, rfl⟩ := exec_cases h
  · rfl
  · exact readByte_effect_of_not_stored ha
end

/-! ## The ways of `pc` -/

/-- Settles O16: `nextPc` is one of the listed ways for each instruction. -/
theorem pcMovesInTheListedWays : Obligations.PcMovesInTheListedWays := by
  intro i s t h hnone
  obtain ⟨f, hf, -⟩ | ⟨-, rfl⟩ := exec_cases h
  · cases hnone.symm.trans hf
  · cases i
    case jp nnn | call nnn => exact zextAddr_toNat nnn
    case jpOfs x nn => exact zextByte_add_toNat nn (readV x s)
    case ret =>
      have hstack : s.stack ≠ [] := fun hempty => by simp [Instr.faultOf, hempty] at hnone
      have hlast := List.getLast?_eq_some_getLast hstack
      exact ⟨_, hlast, by rw [setPc_pc, Instr.nextPc, hlast]; rfl⟩
    case seI | seR | skp => exact (ite_eq_or_eq ..).symm
    case sneI | sneR | sknp => exact ite_eq_or_eq ..
    case ldVK => exact ite_eq_or_eq ..
    all_goals rfl

end Sys2Proof.Machine
end

section
/-! The invariant of every step, and the frames that a step presents (R38, R40, R51, R107, R200, R214). -/

namespace Sys2Proof.Machine

/-! ## Reset, ticks and faults keep the invariant -/

/-- Settles O18: reset lists no byte, has an empty stack, and runs from `0x200`. -/
theorem resetMeetsTheInvariant : Obligations.ResetMeetsTheInvariant where
  memory := reset_mem_wf
  pcBound := by decide
  callSites := fun _ hmem => nomatch hmem
  record := fun _ hstatus => nomatch hstatus

section
variable {i : Instr} {s t : State} {f : Fault}

theorem inv_hostTurn (hinv : Inv s) (hrun : s.status = .running) : Inv (hostTurn s) where
  memory := hinv.memory
  pcBound := hinv.pcBound
  callSites := hinv.callSites
  record := fun _ hf => nomatch hrun.symm.trans hf

theorem recorded_setStatus {x : Status} (h : f.Recorded s) : f.Recorded (setStatus x s) := by
  cases f
  all_goals exact h

theorem inv_setStatus_faulted (hinv : Inv s) (h : f.Recorded s) : Inv (setStatus (.faulted f) s) where
  memory := hinv.memory
  pcBound := hinv.pcBound
  callSites := hinv.callSites
  record := by
    intro g hg
    cases hg
    exact recorded_setStatus h

/-! ## An instruction fetched in range keeps the invariant -/

/-- A store whose access list raises no fault keeps memory canonical. -/
theorem storeAtIndex_mem_wf {bs : List Byte} {n : Nat} (h : Memory.wf s.mem = true) (hn : bs.length = n) (hpos : n ≠ 0)
    (hnone : (if n ≠ 0 ∧ Config.memSize < s.index.toNat + n then some f else none) = none) :
    Memory.wf (storeAtIndex bs s).mem = true := by
  split at hnone
  · cases hnone
  · exact writeBytes_wf bs h (by omega)

theorem effect_mem_wf (h : Memory.wf s.mem = true) (hnone : i.faultOf s = none) : Memory.wf (i.effect s).mem = true := by
  cases i
  case ldBV x => exact storeAtIndex_mem_wf h (decimalDigits_length _) (by decide) hnone
  case ldMemV x => exact storeAtIndex_mem_wf h (firstRegs_length x s) (Nat.succ_ne_zero _) hnone
  case shr | shl => exact (congrArg Memory.wf (shiftV_mem ..)).trans h
  case ldVK => exact (congrArg Memory.wf (takeKey_mem ..)).trans h
  all_goals exact h

theorem effect_callSites (h : ∀ a ∈ s.stack, a.toNat ≤ 0xFFE) (hpc : s.pc.toNat ≤ 0xFFE) :
    ∀ a ∈ (i.effect s).stack, a.toNat ≤ 0xFFE := by
  cases i
  case ret => exact fun a ha => h a (List.mem_of_mem_dropLast ha)
  case call =>
    intro a ha
    obtain ha | ha := List.mem_append.1 ha
    · exact h a ha
    · exact List.mem_singleton.1 ha ▸ hpc
  all_goals
    rw [onlyChanges_effect _ s .stack (by simp [Instr.parts])]
    exact h

theorem pc_add_toNat {a : Word} (n : Nat) (ha : a.toNat ≤ 0xFFE) (hn : n ≤ 4) :
    (a + BitVec.ofNat 16 n).toNat = a.toNat + n := by
  rw [BitVec.toNat_add, BitVec.toNat_ofNat]
  omega

/-- Past a fetched word, over a fetched word after it, at an address, or at the sum of two bytes: all within R38's bound. -/
theorem pc_bound_of_exec (hpc : s.pc.toNat ≤ 0xFFE) (hsites : ∀ a ∈ s.stack, a.toNat ≤ 0xFFE)
    (h : exec i s = .next t) (hnone : i.faultOf s = none) : t.pc.toNat ≤ 0x1002 := by
  have hmove := pcMovesInTheListedWays i s t h hnone
  have h2 := pc_add_toNat 2 hpc (by decide)
  have h4 := pc_add_toNat 4 hpc (by decide)
  cases i
  case jp nnn | call nnn =>
    have := nnn.isLt
    simp only at hmove
    omega
  case jpOfs x nn =>
    have := nn.isLt
    have := (readV x s).isLt
    simp only at hmove
    omega
  case ret =>
    obtain ⟨a, ha, hpop⟩ := hmove
    have := pc_add_toNat 2 (hsites a (List.mem_of_getLast? ha)) (by decide)
    have := hsites a (List.mem_of_getLast? ha)
    rw [hpop]
    omega
  case seI | sneI | seR | sneR | skp | sknp | ldVK =>
    obtain hmove | hmove := hmove
    all_goals
      rw [hmove]
      omega
  all_goals
    rw [show t.pc = s.pc + 2#16 from hmove]
    omega

theorem inv_setPc_effect (hinv : Inv s) (hrun : s.status = .running) (hpc : s.pc.toNat ≤ 0xFFE)
    (hnone : i.faultOf s = none) : Inv (setPc (i.nextPc s) (i.effect s)) where
  memory := effect_mem_wf hinv.memory hnone
  pcBound := pc_bound_of_exec hpc hinv.callSites (exec_of_noFault hnone) hnone
  callSites := effect_callSites hinv.callSites hpc
  record := fun _ hf => nomatch hrun.symm.trans ((effect_status i s).symm.trans hf)
end

/-- Settles O17: the host's turn keeps the invariant, and so does the fetched instruction or the fault. -/
theorem stepKeepsTheInvariant : Obligations.StepKeepsTheInvariant := by
  intro s t hinv h
  obtain ⟨hrun, hstep⟩ := running_of_step h
  have hturn := inv_hostTurn hinv hrun
  obtain ⟨f, hf, rfl⟩ | ⟨i, hpc, hnone, rfl⟩ := coreStep_cases hstep
  · exact inv_setStatus_faulted hturn hf
  · exact inv_setPc_effect hturn hrun hpc hnone

/-! ## Presented frames -/

theorem effect_presented (i : Instr) (s : State) :
    (i.effect s).presented = s.presented ∨ (i.effect s).presented = s.presented ++ [(i.effect s).fb] := by
  cases i
  case drw => exact .inr (drawSprite_presented ..)
  all_goals exact .inl (onlyChanges_effect _ s .frames (by simp [Instr.parts]))

/-- Settles O19: DRW alone presents, and it does so last; a fault presents nothing. -/
theorem presentedFramesOnlyGrow : Obligations.PresentedFramesOnlyGrow := by
  intro s t h
  obtain ⟨-, hstep⟩ := running_of_step h
  obtain ⟨f, -, rfl⟩ | ⟨i, -, -, rfl⟩ := coreStep_cases hstep
  · exact .inl rfl
  · exact effect_presented i (hostTurn s)

end Sys2Proof.Machine
end

section
/-! What has no influence on a run: the sound timer, and a register that the instruction does not read (R34, R41; log 5). -/

namespace Sys2Proof.Machine

section
variable {i : Instr} {s t u : State} {r x : Reg} {b : Byte}

/-- Setting `pc` to one address in two states keeps what they agree on. -/
theorem OnlyChanges.setPc_both {ps : List Part} (h : OnlyChanges ps t u) (a : Word) :
    OnlyChanges ps (setPc a t) (setPc a u) := by
  intro p hp
  cases p
  case pc => rfl
  all_goals exact h _ hp

/-! ## The sound timer -/

theorem faultOf_setSt (i : Instr) (b : Byte) (s : State) : i.faultOf (setSt b s) = i.faultOf s := by
  cases i
  all_goals rfl

theorem nextPc_setSt (i : Instr) (b : Byte) (s : State) : i.nextPc (setSt b s) = i.nextPc s := by
  cases i
  all_goals rfl

theorem shiftV_setSt (flagLast : Bool) (flag shift : Byte → Byte) (x : Reg) (b : Byte) (s : State) :
    shiftV flagLast flag shift x (setSt b s) = setSt b (shiftV flagLast flag shift x s) := by
  unfold shiftV
  rw [apply_ite (setSt b)]
  rfl

theorem takeKey_setSt (x : Reg) (answer : Option Key) (b : Byte) (s : State) :
    takeKey x answer (setSt b s) = setSt b (takeKey x answer s) := by
  cases answer
  all_goals rfl

/-- An effect goes past a write of the sound timer, but for LD_ST_V, which overwrites it. -/
theorem onlyChanges_effect_setSt (i : Instr) (b : Byte) (s : State) :
    OnlyChanges [.sound] (i.effect s) (i.effect (setSt b s)) := by
  have past : ∀ {t : State}, OnlyChanges [.sound] t (setSt b t) := onlyChanges_setSt (by simp)
  cases i
  case ldStV => exact onlyChanges_refl
  case shr | shl =>
    rw [Instr.effect, Instr.effect, shiftV_setSt]
    exact past
  case ldVK x =>
    change OnlyChanges _ _ (takeKey x (Config.poll s.hostAnswers) (setSt b (useAnswer s)))
    rw [takeKey_setSt]
    exact past
  all_goals exact past

/-- Settles O14: the same fault or the same `pc` in both runs, and effects that differ at most in the sound timer. -/
theorem soundTimerIsNeverRead : Obligations.SoundTimerIsNeverRead := by
  intro i s t u b ht hu
  obtain ⟨f, hf, rfl⟩ | ⟨hnone, rfl⟩ := exec_cases ht
  · cases hu.symm.trans (exec_of_fault ((faultOf_setSt i b s).trans hf))
    exact onlyChanges_setSt (s := setStatus (.faulted f) s) (by simp)
  · cases hu.symm.trans (exec_of_noFault ((faultOf_setSt i b s).trans hnone))
    rw [nextPc_setSt]
    exact (onlyChanges_effect_setSt i b s).setPc_both _

/-! ## A register that is not read -/

theorem readV_writeV_of_beq_eq_false (h : (r == x) = false) : readV x (writeV r b s) = readV x s :=
  (readV_writeV ..).trans (if_neg (beq_eq_false_iff_ne.1 h).symm)

theorem agreeOutside_setV {v : Vector Byte 16} (h : ∀ q, q ≠ r → readV q (setV v s) = readV q s) :
    AgreeOutside r s (setV v s) :=
  ⟨onlyChanges_setV (by simp), h⟩

theorem agreeOutside_writeV : AgreeOutside r s (writeV r b s) :=
  agreeOutside_setV fun _ hq => (readV_writeV ..).trans (if_neg hq)

/-- One byte written to one register in two states keeps what they agree on. -/
theorem AgreeOutside.writeV_both (h : AgreeOutside r t u) (x : Reg) (c : Byte) :
    AgreeOutside r (writeV x c t) (writeV x c u) := by
  refine ⟨fun p hp => ?parts, fun q hq => ?regs⟩
  case parts =>
    cases p
    case regs => exact absurd (by simp) hp
    all_goals exact h.1 _ hp
  case regs => rw [readV_writeV, readV_writeV, h.2 q hq]

theorem AgreeOutside.setPc_both (h : AgreeOutside r t u) (a : Word) : AgreeOutside r (setPc a t) (setPc a u) :=
  ⟨h.1.setPc_both a, h.2⟩

theorem AgreeOutside.shiftV_both {flagLast : Bool} {flag shift : Byte → Byte} (h : AgreeOutside r t u) (hx : x ≠ r) :
    AgreeOutside r (shiftV flagLast flag shift x t) (shiftV flagLast flag shift x u) := by
  have hflag := h.writeV_both VF (flag (readV x t))
  unfold shiftV flagThenShift
  rw [h.2 x hx]
  split
  · exact (h.writeV_both x _).writeV_both VF _
  · simp only [hflag.2 x hx]
    exact hflag.writeV_both x _

theorem faultOf_writeV (h : i.readsReg r = false) : i.faultOf (writeV r b s) = i.faultOf s := by
  cases i
  case skp | sknp => rw [Instr.faultOf, Instr.faultOf, readV_writeV_of_beq_eq_false h]; rfl
  all_goals rfl

theorem nextPc_writeV (h : i.readsReg r = false) : i.nextPc (writeV r b s) = i.nextPc s := by
  cases i
  case jpOfs => rw [Instr.nextPc, Instr.nextPc, readV_writeV_of_beq_eq_false h]
  case seI | sneI | skp | sknp => rw [Instr.nextPc, Instr.nextPc, readV_writeV_of_beq_eq_false h]; rfl
  case seR | sneR =>
    obtain ⟨hx, hy⟩ := Bool.or_eq_false_iff.1 h
    rw [Instr.nextPc, Instr.nextPc, readV_writeV_of_beq_eq_false hx, readV_writeV_of_beq_eq_false hy]; rfl
  all_goals rfl

theorem AgreeOutside.writeThenFlag_both (h : AgreeOutside r t u) (x : Reg) (p : Byte × Byte) :
    AgreeOutside r (writeThenFlag x p t) (writeThenFlag x p u) :=
  (h.writeV_both x p.1).writeV_both VF p.2

theorem AgreeOutside.takeKey_both (h : AgreeOutside r t u) (x : Reg) (answer : Option Key) :
    AgreeOutside r (takeKey x answer t) (takeKey x answer u) := by
  cases answer
  case none => exact h
  case some k => exact h.writeV_both x _

theorem agreeOutside_drawSprite (px py : Nat) (rows : List Byte) :
    AgreeOutside r (drawSprite px py rows s) (drawSprite px py rows (writeV r b s)) :=
  agreeOutside_setV (agreeOutside_writeV.writeV_both VF _).2

theorem agreeOutside_loadRegs : AgreeOutside r (loadRegs x s) (loadRegs x (writeV r b s)) := by
  refine agreeOutside_setV (s := loadRegs x s) fun q hq => ?_
  change readV q (loadRegs x (writeV r b s)) = _
  rw [readV_loadRegs, readV_loadRegs, agreeOutside_writeV.2 q hq]
  rfl

theorem firstRegs_writeV (h : ¬ r ≤ x) : firstRegs x (writeV r b s) = firstRegs x s := by
  refine List.ext_getElem (by simp) fun k hk _ => ?_
  have hkx : k ≤ x.val := by
    rw [firstRegs_length] at hk
    omega
  have hne : (⟨k, by omega⟩ : Reg) ≠ r := fun heq => h (heq ▸ hkx)
  rw [firstRegs_getElem, firstRegs_getElem, readV_writeV, if_neg hne]

/-- The effect reads no other register than those of the table: what it writes is the same in both runs. -/
theorem agreeOutside_effect (h : i.readsReg r = false) : AgreeOutside r (i.effect s) (i.effect (writeV r b s)) := by
  have start : AgreeOutside r s (writeV r b s) := agreeOutside_writeV
  have answered : AgreeOutside r (useAnswer s) (useAnswer (writeV r b s)) :=
    agreeOutside_writeV (s := useAnswer s)
  cases i
  case ldI | ldVDt => exact start.writeV_both ..
  case addI | ldR =>
    rw [Instr.effect, Instr.effect, readV_writeV_of_beq_eq_false h]
    exact start.writeV_both ..
  case or | and | xor =>
    obtain ⟨hx, hy⟩ := Bool.or_eq_false_iff.1 h
    rw [Instr.effect, Instr.effect, readV_writeV_of_beq_eq_false hx, readV_writeV_of_beq_eq_false hy]
    exact start.writeV_both ..
  case addR | sub | subn =>
    obtain ⟨hx, hy⟩ := Bool.or_eq_false_iff.1 h
    rw [Instr.effect, Instr.effect, readV_writeV_of_beq_eq_false hx, readV_writeV_of_beq_eq_false hy]
    exact start.writeThenFlag_both ..
  case shr | shl => exact start.shiftV_both (beq_eq_false_iff_ne.1 h).symm
  case rnd => exact answered.writeV_both ..
  case ldVK => exact answered.takeKey_both ..
  case drw =>
    obtain ⟨hx, hy⟩ := Bool.or_eq_false_iff.1 h
    rw [Instr.effect, Instr.effect, readV_writeV_of_beq_eq_false hx, readV_writeV_of_beq_eq_false hy]
    exact agreeOutside_drawSprite ..
  case ldVMem => exact agreeOutside_loadRegs
  case ldDtV | ldStV | addIdxV | ldFV | ldBV =>
    rw [Instr.effect, Instr.effect, readV_writeV_of_beq_eq_false h]
    exact agreeOutside_writeV
  case ldMemV =>
    rw [Instr.effect, Instr.effect, firstRegs_writeV (of_decide_eq_false h)]
    exact agreeOutside_writeV
  all_goals exact agreeOutside_writeV
end

/-- Settles O13: the same fault or the same `pc` in both runs, and effects that differ at most in the register. -/
theorem onlyReadRegistersMatter : Obligations.OnlyReadRegistersMatter := by
  intro i s t u r b hreads ht hu
  obtain ⟨f, hf, rfl⟩ | ⟨hnone, rfl⟩ := exec_cases ht
  · cases hu.symm.trans (exec_of_fault ((faultOf_writeV hreads).trans hf))
    exact agreeOutside_writeV (s := setStatus (.faulted f) s)
  · cases hu.symm.trans (exec_of_noFault ((faultOf_writeV hreads).trans hnone))
    rw [nextPc_writeV hreads]
    exact (agreeOutside_effect hreads).setPc_both _

end Sys2Proof.Machine
end

section
/-! Construction, the host's turn and the step around one instruction (R64, R74, R211, R221, R230, R231). -/

namespace Sys2Proof.Machine

/-! ## Construction and ticks -/

/-- Settles O21: an image either overflows or fits, and the empty image writes nothing. -/
theorem newFailsExactlyWhenTheImageOverflows : Obligations.NewFailsExactlyWhenTheImageOverflows :=
  ⟨fun _ hbig => if_pos hbig, fun _ hfit => ⟨_, new_eq_ok_iff.2 ⟨hfit, rfl⟩⟩, rfl⟩

theorem runTicks_eq_iterate (n : Nat) (s : State) : runTicks n s = Nat.iterate tickTimers n s := by
  induction n generalizing s with
  | zero => exact runTicks_zero s
  | succ n ih => rw [runTicks_succ, ih]; rfl

/-- Settles O23: several ticks in one operation are that many single ticks, and the host's turn is such an operation. -/
theorem hostTurnIsSomeNumberOfTicks : Obligations.HostTurnIsSomeNumberOfTicks :=
  ⟨runTicks_eq_iterate, fun s => ⟨Config.hostTicks s.hostAnswers, congrArg useAnswer (runTicks_eq_iterate _ s)⟩⟩

/-! ## A step and the word at `pc` -/

section
variable {s : State}

/-- The host's turn moves neither `pc` nor memory, so a step fetches what stood at `pc` before it. -/
theorem step_of_fetch_inRange (hrun : s.status = .running) (h : s.pc.toNat + 1 < Config.memSize) :
    step s = exec (decodeWord (wordAt s.mem s.pc.toNat)) (hostTurn s) :=
  (step_of_running hrun).trans (coreStep_of_fetch_inRange (s := hostTurn s) h)

theorem onlyChanges_hostTurn : OnlyChanges [.delay, .sound, .answers] s (hostTurn s) :=
  ((onlyChanges_setDt (by simp)).trans (onlyChanges_setSt (by simp))).trans (onlyChanges_useAnswer (by simp))
end

/-- Settles O7: both the core's step and the step with the host's turn run what the word at `pc` decodes to. -/
theorem stepRunsTheDecodedInstruction : Obligations.StepRunsTheDecodedInstruction := by
  rintro s i hrun hpc rfl
  obtain ⟨hwf, -⟩ := unrecognizedWordsAreThoseListed (wordAt s.mem s.pc.toNat)
  exact ⟨hwf, step_of_fetch_inRange hrun hpc, coreStep_of_fetch_inRange hpc⟩

/-- Settles O58: the jump writes the `pc` it was fetched from, so the step is the host's turn and nothing else. -/
theorem parkedCoreStaysParked : Obligations.ParkedCoreStaysParked := by
  intro s ⟨hrun, hrange, nnn, hword, hself⟩
  have htarget : zextAddr nnn = s.pc := BitVec.eq_of_toNat_eq ((zextAddr_toNat nnn).trans hself)
  refine ⟨hostTurn s, ?step, ⟨hrun, hrange, nnn, hword, hself⟩, onlyChanges_hostTurn⟩
  case step =>
    rw [step_of_fetch_inRange hrun hrange, hword, exec_jp, htarget]
    rfl

/-- Settles O52: both bytes at `pc` are dumped registers, and the fetch joins them. -/
theorem fetchSeesTheStoredBytes : Obligations.FetchSeesTheStoredBytes := by
  intro x k l s t u hwf _ hdump hrun hl hlx hmem hpc
  obtain ⟨hrange, rfl⟩ := exec_ldMemV_of_running hdump hrun
  have hlx' : l.val ≤ x.val := hlx
  have hkx : k ≤ x := Fin.le_def.2 (by omega)
  have hhi := readByte_storeAtIndex_firstRegs hwf hrange hkx
  have hlo := readByte_storeAtIndex_firstRegs hwf hrange hlx
  have hword : wordAt u.mem u.pc.toNat = joinBytes (readV k s) (readV l s) := by
    rw [wordAt, hmem, hpc, setPc_mem, hhi, Nat.add_assoc, ← hl, hlo]
  rw [coreStep_of_fetch_inRange (by omega), hword]

/-! ## A call and its return -/

/-- Settles O30: the return pops the entry that the call pushed, which is the call's own address. -/
theorem retAfterCallLandsAfterTheCall : Obligations.RetAfterCallLandsAfterTheCall := by
  intro nnn s t u w hcall hstack hret
  cases (exec_call nnn s).symm.trans hcall
  cases (exec_ret_of_append (hstack.trans (push_stack s s.pc))).symm.trans hret
  exact ⟨rfl, rfl⟩

/-! ## Drawing twice -/

section
variable {x y : Reg} {n : Count} {s t : State}

theorem exec_drw_of_running (h : exec (.drw x y n) s = .next t) (hrun : t.status = .running) :
    (n.val = 0 ∨ s.index.toNat + n.val ≤ Config.memSize) ∧
      t = setPc (s.pc + 2#16) (drawSprite (readV x s).toNat (readV y s).toNat (spriteRows n s) s) :=
  inRange_of_running exec_drw_inRange (fun hout => exec_drw_outOfRange (by omega)) h hrun
/-- DRW with coordinates other than `VF` finds after itself the operands that it found before. -/
theorem exec_drw_after_drw (hx : x ≠ VF) (hy : y ≠ VF)
    (hrange : n.val = 0 ∨ s.index.toNat + n.val ≤ Config.memSize)
    (ht : t = setPc (s.pc + 2#16) (drawSprite (readV x s).toNat (readV y s).toNat (spriteRows n s) s)) :
    exec (.drw x y n) t =
      .next (setPc (t.pc + 2#16) (drawSprite (readV x s).toNat (readV y s).toNat (spriteRows n s) t)) := by
  have hkeep : ∀ r, r ≠ VF → readV r t = readV r s := fun r hr => by
    rw [ht, readV_setPc, readV_drawSprite_other _ _ _ s hr]
  have hrows : spriteRows n t = spriteRows n s := by rw [ht]; rfl
  have hindex : t.index = s.index := by rw [ht]; rfl
  rw [exec_drw_inRange (hindex ▸ hrange), hkeep x hx, hkeep y hy, hrows]
end

/-- Settles O26: the second draw toggles the same targets again; it meets a lit pixel exactly where the first met a dark
one. -/
theorem drawingTwiceRestoresTheScreen : Obligations.DrawingTwiceRestoresTheScreen := by
  intro x y n s t u hx hy _ hfirst htrun hsecond
  obtain ⟨hrange, ht⟩ := exec_drw_of_running hfirst htrun
  cases (exec_drw_after_drw hx hy hrange ht).symm.trans hsecond
  have hfb : ∀ p, pixelAt t.fb p =
      (pixelAt s.fb p ^^ spriteBit s (readV x s).toNat (readV y s).toNat n.val p) := fun p => by
    rw [ht, setPc_fb, drawSprite_pixel, spriteRows, decide_mem_spriteTargets]
  refine ⟨htrun, fun p => ?restored, ?collision⟩
  case restored =>
    rw [setPc_fb, drawSprite_pixel, spriteRows, decide_mem_spriteTargets, hfb, Bool.xor_assoc, Bool.xor_self,
      Bool.xor_false]
  case collision =>
    rw [readV_setPc, readV_drawSprite_VF_eq_one_iff]
    refine exists_congr fun p => ?_
    rw [mem_spriteTargets_spriteRows, hfb, and_comm]
    refine and_congr_left fun hbit => ?_
    rw [hbit, Bool.xor_true, Bool.not_eq_true']

end Sys2Proof.Machine
end
